-- ==== Sys2Proof/Word.lean ====
section
/-! DEFINITION. The word types of the machine (00_scope.md R5, R6): bytes, 16-bit words, the immediates of an
instruction word, and the two index types that its 4-bit fields select. -/

namespace Sys2Proof

/-- A general register, a timer, a byte of memory (`XLEN`, `TIMER_W` = 8; R5). -/
abbrev Byte := BitVec 8

/-- An instruction word, `pc`, `I`, a stack entry (`PCLEN`, `ILEN`, `STACK_W` = 16; R5). -/
abbrev Word := BitVec 16

/-- A 4-bit field: `T`, `X`, `Y` or `N` (R8). -/
abbrev Nibble := BitVec 4

/-- The 12-bit immediate `NNN` (R8). -/
abbrev Imm12 := BitVec 12

/-- The index of a general register, 0 to 15 (R10: an index is always in range). -/
abbrev Reg := Fin 16

/-- A logical key code, 0x0 to 0xF (R23: no other code can be delivered). -/
abbrev Key := Fin 16

end Sys2Proof
end

