-- ==== Sys2Proof/Config.lean ====
section
/-! DEFINITION. What is fixed for the machine (00_scope.md R5): the constants of the architecture, and the values the
spec leaves open, as constants without a body. The three model arguments that have a default (`STACK_DEPTH`,
`BNNN_WRAP`, `FONT`) are the fields of `Params`, which the state carries; their defaults stand in Machine/Params.lean. -/

namespace Sys2Proof

/-- `MEM_SIZE`: 4096 bytes (R5). -/
def Config.memSize : Nat := 4096

/-- `FB_W`: 64 columns (R5). -/
def Config.fbWidth : Nat := 64

/-- `FB_H`: 32 rows (R5). -/
def Config.fbHeight : Nat := 32

/-- `FONT_BASE` (R5). -/
def Config.fontBase : Nat := 0x050

/-- `GLYPH_SIZE`: 5 bytes (R5). -/
def Config.glyphSize : Nat := 5

/-- The size of the font table: 16 glyphs of 5 bytes (R55). -/
def Config.fontSize : Nat := 80

/-- A font table: 80 bytes, the glyph of digit `d` at 5 × `d` (R55). -/
abbrev Font := Vector Byte 80

/-- The model arguments of R5 that some rule reads, for any machine of this architecture (log 29). -/
structure Params where
  /-- `STACK_DEPTH`: how many entries the stack can hold (R5, R15, U4). -/
  stackDepth : Nat
  /-- `BNNN_WRAP`: whether the sum of BNNN is reduced to 12 bits (R5, R88, U1). -/
  bnnnWrap : Bool
  /-- `FONT`: the table that boot places at 0x050 (R5, R55, R202). -/
  font : Font
deriving DecidableEq, Repr

/-- `PROG_BASE`, where the program image is loaded and where execution starts (R5, R201). -/
def Config.progBase : Nat := 0x200

/-- `PROG_MAX`: the longest program image, 4096 − 0x200 bytes (R5, R48). -/
def Config.progMax : Nat := 3584

/-- `TICK_HZ`: 60 ticks per second of real time, used by no rule (R5, R215). -/
def Config.tickHz : Nat := 60

/-- `INSTR_RATE`: left open, used by no rule (R5, R216; log 25). -/
opaque Config.instrRate : Nat

/-- FREE VALUE. The random sample that the `n`-th execution of CXNN takes when the host's samples are not listed in
the state: any 8-bit value, no relation between two of them (R24, R112; log 6). -/
opaque Config.freeSample : Nat → Byte

end Sys2Proof
end

