-- ==== Sys2Proof/Syntax.lean ====
section
/-! DEFINITION. The 34 instructions of 30_encoding.md R64, one constructor for each row of spec/opcode_table.json. -/

namespace Sys2Proof

/-- The instructions (R64). `x`, `y` are the register fields `X`, `Y`, and `n`, `nn`, `nnn` the immediates (R8). A
field an instruction ignores (`Y` of the two shifts, R72) is no operand of it. -/
inductive Instr where
  /-- 00E0 `CLS` -/
  | cls
  /-- 00EE `RET` -/
  | ret
  /-- 1NNN `JP nnn` -/
  | jp (nnn : Imm12)
  /-- 2NNN `CALL nnn` -/
  | call (nnn : Imm12)
  /-- 3XNN `SE Vx, nn` -/
  | seI (x : Reg) (nn : Byte)
  /-- 4XNN `SNE Vx, nn` -/
  | sneI (x : Reg) (nn : Byte)
  /-- 5XY0 `SE Vx, Vy` -/
  | seR (x y : Reg)
  /-- 6XNN `LD Vx, nn` -/
  | ldI (x : Reg) (nn : Byte)
  /-- 7XNN `ADD Vx, nn` -/
  | addI (x : Reg) (nn : Byte)
  /-- 8XY0 `LD Vx, Vy` -/
  | ldR (x y : Reg)
  /-- 8XY1 `OR Vx, Vy` -/
  | bitOr (x y : Reg)
  /-- 8XY2 `AND Vx, Vy` -/
  | bitAnd (x y : Reg)
  /-- 8XY3 `XOR Vx, Vy` -/
  | bitXor (x y : Reg)
  /-- 8XY4 `ADD Vx, Vy` -/
  | addR (x y : Reg)
  /-- 8XY5 `SUB Vx, Vy` -/
  | sub (x y : Reg)
  /-- 8XY6 `SHR Vx` -/
  | shr (x : Reg)
  /-- 8XY7 `SUBN Vx, Vy` -/
  | subn (x y : Reg)
  /-- 8XYE `SHL Vx` -/
  | shl (x : Reg)
  /-- 9XY0 `SNE Vx, Vy` -/
  | sneR (x y : Reg)
  /-- ANNN `LD I, nnn` -/
  | ldIdx (nnn : Imm12)
  /-- BNNN `JP V0, nnn` -/
  | jpV0 (nnn : Imm12)
  /-- CXNN `RND Vx, nn` -/
  | rnd (x : Reg) (nn : Byte)
  /-- DXYN `DRW Vx, Vy, n` -/
  | drw (x y : Reg) (n : Nibble)
  /-- EX9E `SKP Vx` -/
  | skp (x : Reg)
  /-- EXA1 `SKNP Vx` -/
  | sknp (x : Reg)
  /-- FX07 `LD Vx, DT` -/
  | ldVxDt (x : Reg)
  /-- FX0A `LD Vx, K` -/
  | ldVxK (x : Reg)
  /-- FX15 `LD DT, Vx` -/
  | ldDtVx (x : Reg)
  /-- FX18 `LD ST, Vx` -/
  | ldStVx (x : Reg)
  /-- FX1E `ADD I, Vx` -/
  | addIdx (x : Reg)
  /-- FX29 `LD F, Vx` -/
  | ldF (x : Reg)
  /-- FX33 `LD B, Vx` -/
  | ldB (x : Reg)
  /-- FX55 `LD [I], Vx` -/
  | stRegs (x : Reg)
  /-- FX65 `LD Vx, [I]` -/
  | ldRegs (x : Reg)
deriving DecidableEq, Repr

end Sys2Proof
end

