-- ==== Sys2Proof/WellFormed.lean ====
section
/-! DEFINITION. Well-formedness. The types of Syntax.lean bound every operand, so every instruction passes its check; the
checks that can refuse are those on plain numbers (does a value fit the field it is written in) and on the bytes the
host supplies (font table, program image). -/

namespace Sys2Proof

/-- The value `v` fits an unsigned field of `bits` bits (R6, R62). -/
def fitsField (bits v : Nat) : Bool := decide (v < 2 ^ bits)

/-- A register index fits the 4-bit field `X` or `Y` (R10, R61). -/
def wellFormedReg (r : Nat) : Bool := fitsField 4 r

/-- A row count fits the 4-bit field `N` (R62). -/
def wellFormedN (n : Nat) : Bool := fitsField 4 n

/-- An immediate fits the 8-bit field `NN` (R62). -/
def wellFormedNN (nn : Nat) : Bool := fitsField 8 nn

/-- An immediate fits the 12-bit field `NNN` (R62). -/
def wellFormedNNN (nnn : Nat) : Bool := fitsField 12 nnn

/-- Every operand of an instruction fits its field of the instruction word (R61, R62). -/
def Instr.wellFormed : Instr → Bool
  | .cls => true
  | .ret => true
  | .jp nnn => wellFormedNNN nnn.toNat
  | .call nnn => wellFormedNNN nnn.toNat
  | .seI x nn => wellFormedReg x.val && wellFormedNN nn.toNat
  | .sneI x nn => wellFormedReg x.val && wellFormedNN nn.toNat
  | .seR x y => wellFormedReg x.val && wellFormedReg y.val
  | .ldI x nn => wellFormedReg x.val && wellFormedNN nn.toNat
  | .addI x nn => wellFormedReg x.val && wellFormedNN nn.toNat
  | .ldR x y => wellFormedReg x.val && wellFormedReg y.val
  | .bitOr x y => wellFormedReg x.val && wellFormedReg y.val
  | .bitAnd x y => wellFormedReg x.val && wellFormedReg y.val
  | .bitXor x y => wellFormedReg x.val && wellFormedReg y.val
  | .addR x y => wellFormedReg x.val && wellFormedReg y.val
  | .sub x y => wellFormedReg x.val && wellFormedReg y.val
  | .shr x => wellFormedReg x.val
  | .subn x y => wellFormedReg x.val && wellFormedReg y.val
  | .shl x => wellFormedReg x.val
  | .sneR x y => wellFormedReg x.val && wellFormedReg y.val
  | .ldIdx nnn => wellFormedNNN nnn.toNat
  | .jpV0 nnn => wellFormedNNN nnn.toNat
  | .rnd x nn => wellFormedReg x.val && wellFormedNN nn.toNat
  | .drw x y n => wellFormedReg x.val && wellFormedReg y.val && wellFormedN n.toNat
  | .skp x => wellFormedReg x.val
  | .sknp x => wellFormedReg x.val
  | .ldVxDt x => wellFormedReg x.val
  | .ldVxK x => wellFormedReg x.val
  | .ldDtVx x => wellFormedReg x.val
  | .ldStVx x => wellFormedReg x.val
  | .addIdx x => wellFormedReg x.val
  | .ldF x => wellFormedReg x.val
  | .ldB x => wellFormedReg x.val
  | .stRegs x => wellFormedReg x.val
  | .ldRegs x => wellFormedReg x.val

/-- A font table is 80 bytes (R55). -/
def wellFormedFont (font : List Byte) : Bool := decide (font.length = Config.fontSize)

/-- A program image fits between 0x200 and the end of memory: at most 3584 bytes (R48, R202). -/
def wellFormedImage (image : List Byte) : Bool := decide (image.length ≤ Config.progMax)

end Sys2Proof
end

