-- ==== Sys2Proof/Decode.lean ====
section
/-! DEFINITION. The decoder (30_encoding.md R60 to R72), total on any bytes and rejecting by name, the opcode map of R64
as a table of masks and matches, and the encoder. The bit patterns of 31 of the 34 rows are the spec's general
knowledge (G1, G2; log 16). -/

namespace Sys2Proof

/-- Why bytes are no instruction. -/
inductive DecodeReject where
  /-- The word matches no row of R64: an unknown pattern (R70). Safe: executing it raises UnknownOpcode (R172). -/
  | unknownPattern (w : Word)
  /-- Fewer than the two bytes of an instruction (R60). Safe: the machine never decodes it, since its fetch reads
  exactly two bytes or raises OutOfBounds (R43). -/
  | truncated
deriving DecidableEq, Repr

/-- `T = op[15:12]`, the family selector (R8, R61). -/
def fieldT (w : Word) : Nibble := w.extractLsb' 12 4

/-- `X = op[11:8]` (R8, R61). -/
def fieldX (w : Word) : Nibble := w.extractLsb' 8 4

/-- `Y = op[7:4]` (R8, R61). -/
def fieldY (w : Word) : Nibble := w.extractLsb' 4 4

/-- `N = op[3:0]` (R8, R61). -/
def fieldN (w : Word) : Nibble := w.extractLsb' 0 4

/-- `NN = op[7:0]` (R8, R61). -/
def fieldNN (w : Word) : Byte := w.extractLsb' 0 8

/-- `NNN = op[11:0]` (R8, R61). -/
def fieldNNN (w : Word) : Imm12 := w.extractLsb' 0 12

/-- The register that a 4-bit field selects (R10). -/
def regOf (f : Nibble) : Reg := f.toFin

/-- Family `T` = 0: two words, matched whole (R65, R71). -/
def decode0 (w : Word) : Except DecodeReject Instr :=
  match w.toNat with
  | 0x00E0 => .ok .cls
  | 0x00EE => .ok .ret
  | _ => .error (.unknownPattern w)

/-- Families `T` = 5 and 9: one instruction each, with `N` = 0 (R69). -/
def decodeN0 (w : Word) (i : Instr) : Except DecodeReject Instr :=
  match (fieldN w).toNat with
  | 0 => .ok i
  | _ => .error (.unknownPattern w)

/-- Family `T` = 8: `N` selects among nine (R66). -/
def decode8 (w : Word) : Except DecodeReject Instr :=
  match (fieldN w).toNat with
  | 0x0 => .ok (.ldR (regOf (fieldX w)) (regOf (fieldY w)))
  | 0x1 => .ok (.bitOr (regOf (fieldX w)) (regOf (fieldY w)))
  | 0x2 => .ok (.bitAnd (regOf (fieldX w)) (regOf (fieldY w)))
  | 0x3 => .ok (.bitXor (regOf (fieldX w)) (regOf (fieldY w)))
  | 0x4 => .ok (.addR (regOf (fieldX w)) (regOf (fieldY w)))
  | 0x5 => .ok (.sub (regOf (fieldX w)) (regOf (fieldY w)))
  | 0x6 => .ok (.shr (regOf (fieldX w)))
  | 0x7 => .ok (.subn (regOf (fieldX w)) (regOf (fieldY w)))
  | 0xE => .ok (.shl (regOf (fieldX w)))
  | _ => .error (.unknownPattern w)

/-- Family `T` = 0xE: `NN` selects between two (R67). -/
def decodeE (w : Word) : Except DecodeReject Instr :=
  match (fieldNN w).toNat with
  | 0x9E => .ok (.skp (regOf (fieldX w)))
  | 0xA1 => .ok (.sknp (regOf (fieldX w)))
  | _ => .error (.unknownPattern w)

/-- Family `T` = 0xF: `NN` selects among nine (R68). -/
def decodeF (w : Word) : Except DecodeReject Instr :=
  match (fieldNN w).toNat with
  | 0x07 => .ok (.ldVxDt (regOf (fieldX w)))
  | 0x0A => .ok (.ldVxK (regOf (fieldX w)))
  | 0x15 => .ok (.ldDtVx (regOf (fieldX w)))
  | 0x18 => .ok (.ldStVx (regOf (fieldX w)))
  | 0x1E => .ok (.addIdx (regOf (fieldX w)))
  | 0x29 => .ok (.ldF (regOf (fieldX w)))
  | 0x33 => .ok (.ldB (regOf (fieldX w)))
  | 0x55 => .ok (.stRegs (regOf (fieldX w)))
  | 0x65 => .ok (.ldRegs (regOf (fieldX w)))
  | _ => .error (.unknownPattern w)

/-- The decoder on one instruction word: first on `T`, then as R63 says. -/
def decode (w : Word) : Except DecodeReject Instr :=
  match (fieldT w).toNat with
  | 0x0 => decode0 w
  | 0x1 => .ok (.jp (fieldNNN w))
  | 0x2 => .ok (.call (fieldNNN w))
  | 0x3 => .ok (.seI (regOf (fieldX w)) (fieldNN w))
  | 0x4 => .ok (.sneI (regOf (fieldX w)) (fieldNN w))
  | 0x5 => decodeN0 w (.seR (regOf (fieldX w)) (regOf (fieldY w)))
  | 0x6 => .ok (.ldI (regOf (fieldX w)) (fieldNN w))
  | 0x7 => .ok (.addI (regOf (fieldX w)) (fieldNN w))
  | 0x8 => decode8 w
  | 0x9 => decodeN0 w (.sneR (regOf (fieldX w)) (regOf (fieldY w)))
  | 0xA => .ok (.ldIdx (fieldNNN w))
  | 0xB => .ok (.jpV0 (fieldNNN w))
  | 0xC => .ok (.rnd (regOf (fieldX w)) (fieldNN w))
  | 0xD => .ok (.drw (regOf (fieldX w)) (regOf (fieldY w)) (fieldN w))
  | 0xE => decodeE w
  | _ => decodeF w

/-- `b[0] ++ b[1]`, the instruction word of two bytes: the byte at the lower address is the high half (R43, R44). -/
def wordOfBytes (hi lo : Byte) : Word := BitVec.ofNat 16 (hi.toNat * 0x100 + lo.toNat)

/-- The decoder on any bytes: the first instruction and the bytes after it. -/
def decodeBytes : List Byte → Except DecodeReject (Instr × List Byte)
  | hi :: lo :: rest => (decode (wordOfBytes hi lo)).map fun i => (i, rest)
  | _ => .error .truncated

/-- Format `T ++ NNN` (R61). -/
def encodeNNN (t : Nibble) (nnn : Imm12) : Word := BitVec.ofNat 16 (t.toNat * 0x1000 + nnn.toNat)

/-- Format `T ++ X ++ NN` (R61). -/
def encodeXNN (t : Nibble) (x : Reg) (nn : Byte) : Word :=
  BitVec.ofNat 16 (t.toNat * 0x1000 + x.val * 0x100 + nn.toNat)

/-- Format `T ++ X ++ Y ++ N` (R61). -/
def encodeXYN (t : Nibble) (x y : Reg) (n : Nibble) : Word :=
  BitVec.ofNat 16 (t.toNat * 0x1000 + x.val * 0x100 + y.val * 0x10 + n.toNat)

/-- The encoder, from the patterns of R64. The shifts assemble with `Y` = 0 (R73). -/
def encode : Instr → Word
  | .cls => 0x00E0
  | .ret => 0x00EE
  | .jp nnn => encodeNNN 0x1 nnn
  | .call nnn => encodeNNN 0x2 nnn
  | .seI x nn => encodeXNN 0x3 x nn
  | .sneI x nn => encodeXNN 0x4 x nn
  | .seR x y => encodeXYN 0x5 x y 0x0
  | .ldI x nn => encodeXNN 0x6 x nn
  | .addI x nn => encodeXNN 0x7 x nn
  | .ldR x y => encodeXYN 0x8 x y 0x0
  | .bitOr x y => encodeXYN 0x8 x y 0x1
  | .bitAnd x y => encodeXYN 0x8 x y 0x2
  | .bitXor x y => encodeXYN 0x8 x y 0x3
  | .addR x y => encodeXYN 0x8 x y 0x4
  | .sub x y => encodeXYN 0x8 x y 0x5
  | .shr x => encodeXYN 0x8 x 0 0x6
  | .subn x y => encodeXYN 0x8 x y 0x7
  | .shl x => encodeXYN 0x8 x 0 0xE
  | .sneR x y => encodeXYN 0x9 x y 0x0
  | .ldIdx nnn => encodeNNN 0xA nnn
  | .jpV0 nnn => encodeNNN 0xB nnn
  | .rnd x nn => encodeXNN 0xC x nn
  | .drw x y n => encodeXYN 0xD x y n
  | .skp x => encodeXNN 0xE x 0x9E
  | .sknp x => encodeXNN 0xE x 0xA1
  | .ldVxDt x => encodeXNN 0xF x 0x07
  | .ldVxK x => encodeXNN 0xF x 0x0A
  | .ldDtVx x => encodeXNN 0xF x 0x15
  | .ldStVx x => encodeXNN 0xF x 0x18
  | .addIdx x => encodeXNN 0xF x 0x1E
  | .ldF x => encodeXNN 0xF x 0x29
  | .ldB x => encodeXNN 0xF x 0x33
  | .stRegs x => encodeXNN 0xF x 0x55
  | .ldRegs x => encodeXNN 0xF x 0x65

/-- The two bytes of an instruction word in memory order: high half first (R44). -/
def bytesOfWord (w : Word) : List Byte := [w.extractLsb' 8 8, w.extractLsb' 0 8]

/-- One row of the opcode map (R64): a word `w` selects it when `w and mask = pattern`. -/
structure OpcodeRow where
  mnemonic : String
  mask     : Word
  pattern  : Word
deriving DecidableEq, Repr

/-- A word selects a row (R64). -/
def OpcodeRow.selects (r : OpcodeRow) (w : Word) : Bool := decide (w &&& r.mask = r.pattern)

/-- The row of R64 an instruction belongs to, with its mnemonic in spec/opcode_table.json. -/
def Instr.row : Instr → OpcodeRow
  | .cls => ⟨"CLS", 0xFFFF, 0x00E0⟩
  | .ret => ⟨"RET", 0xFFFF, 0x00EE⟩
  | .jp _ => ⟨"JP_nnn", 0xF000, 0x1000⟩
  | .call _ => ⟨"CALL_nnn", 0xF000, 0x2000⟩
  | .seI _ _ => ⟨"SE_Vx__nn", 0xF000, 0x3000⟩
  | .sneI _ _ => ⟨"SNE_Vx__nn", 0xF000, 0x4000⟩
  | .seR _ _ => ⟨"SE_Vx__Vy", 0xF00F, 0x5000⟩
  | .ldI _ _ => ⟨"LD_Vx__nn", 0xF000, 0x6000⟩
  | .addI _ _ => ⟨"ADD_Vx__nn", 0xF000, 0x7000⟩
  | .ldR _ _ => ⟨"LD_Vx__Vy", 0xF00F, 0x8000⟩
  | .bitOr _ _ => ⟨"OR_Vx__Vy", 0xF00F, 0x8001⟩
  | .bitAnd _ _ => ⟨"AND_Vx__Vy", 0xF00F, 0x8002⟩
  | .bitXor _ _ => ⟨"XOR_Vx__Vy", 0xF00F, 0x8003⟩
  | .addR _ _ => ⟨"ADD_Vx__Vy", 0xF00F, 0x8004⟩
  | .sub _ _ => ⟨"SUB_Vx__Vy", 0xF00F, 0x8005⟩
  | .shr _ => ⟨"SHR_Vx", 0xF00F, 0x8006⟩
  | .subn _ _ => ⟨"SUBN_Vx__Vy", 0xF00F, 0x8007⟩
  | .shl _ => ⟨"SHL_Vx", 0xF00F, 0x800E⟩
  | .sneR _ _ => ⟨"SNE_Vx__Vy", 0xF00F, 0x9000⟩
  | .ldIdx _ => ⟨"LD_I__nnn", 0xF000, 0xA000⟩
  | .jpV0 _ => ⟨"JP_V0__nnn", 0xF000, 0xB000⟩
  | .rnd _ _ => ⟨"RND_Vx__nn", 0xF000, 0xC000⟩
  | .drw _ _ _ => ⟨"DRW_Vx__Vy__n", 0xF000, 0xD000⟩
  | .skp _ => ⟨"SKP_Vx", 0xF0FF, 0xE09E⟩
  | .sknp _ => ⟨"SKNP_Vx", 0xF0FF, 0xE0A1⟩
  | .ldVxDt _ => ⟨"LD_Vx__DT", 0xF0FF, 0xF007⟩
  | .ldVxK _ => ⟨"LD_Vx__K", 0xF0FF, 0xF00A⟩
  | .ldDtVx _ => ⟨"LD_DT__Vx", 0xF0FF, 0xF015⟩
  | .ldStVx _ => ⟨"LD_ST__Vx", 0xF0FF, 0xF018⟩
  | .addIdx _ => ⟨"ADD_I__Vx", 0xF0FF, 0xF01E⟩
  | .ldF _ => ⟨"LD_F__Vx", 0xF0FF, 0xF029⟩
  | .ldB _ => ⟨"LD_B__Vx", 0xF0FF, 0xF033⟩
  | .stRegs _ => ⟨"LD__I___Vx", 0xF0FF, 0xF055⟩
  | .ldRegs _ => ⟨"LD_Vx___I", 0xF0FF, 0xF065⟩

/-- The opcode map of R64, in the table's order: one instruction of each row, taken for its row. -/
def opcodeMap : List OpcodeRow :=
  [Instr.cls.row, Instr.ret.row, (Instr.jp 0).row, (Instr.call 0).row, (Instr.seI 0 0).row, (Instr.sneI 0 0).row,
   (Instr.seR 0 0).row, (Instr.ldI 0 0).row, (Instr.addI 0 0).row, (Instr.ldR 0 0).row] ++
  [(Instr.bitOr 0 0).row, (Instr.bitAnd 0 0).row, (Instr.bitXor 0 0).row, (Instr.addR 0 0).row, (Instr.sub 0 0).row,
   (Instr.shr 0).row, (Instr.subn 0 0).row, (Instr.shl 0).row, (Instr.sneR 0 0).row, (Instr.ldIdx 0).row] ++
  [(Instr.jpV0 0).row, (Instr.rnd 0 0).row, (Instr.drw 0 0 0).row, (Instr.skp 0).row, (Instr.sknp 0).row,
   (Instr.ldVxDt 0).row, (Instr.ldVxK 0).row, (Instr.ldDtVx 0).row, (Instr.ldStVx 0).row] ++
  [(Instr.addIdx 0).row, (Instr.ldF 0).row, (Instr.ldB 0).row, (Instr.stRegs 0).row, (Instr.ldRegs 0).row]

/-- The instruction the decoder reads from an instruction whose bits are `w`, numbered from the least significant bit of
its one 16-bit word; bits above `nbits` are 0 (the host's question; 16 bits is the longest instruction, R60). -/
def decodeTableWord (nbits w : Nat) : Option Instr :=
  match decodeBytes (bytesOfWord (BitVec.ofNat 16 (w % 2 ^ nbits))) with
  | .ok (i, _) => some i
  | .error _ => none

end Sys2Proof
end

