-- ==== Sys2Proof/Machine/Params.lean ====
section
/-! DEFINITION. The defaults of the three model arguments of 00_scope.md R5 that some rule reads. A machine takes any
`Params`; State.reset is the machine that takes these. -/

namespace Sys2Proof.Machine

/-- The rows of the default `FONT`, digits 0 to 7 (R55; log 9). -/
def fontLow : List Byte :=
  [0xF0, 0x90, 0x90, 0x90, 0xF0] ++ [0x20, 0x60, 0x20, 0x20, 0x70] ++
  [0xF0, 0x10, 0xF0, 0x80, 0xF0] ++ [0xF0, 0x10, 0xF0, 0x10, 0xF0] ++
  [0x90, 0x90, 0xF0, 0x10, 0x10] ++ [0xF0, 0x80, 0xF0, 0x10, 0xF0] ++
  [0xF0, 0x80, 0xF0, 0x90, 0xF0] ++ [0xF0, 0x10, 0x20, 0x40, 0x40]

/-- The rows of the default `FONT`, digits 8 to F (R55; log 9). -/
def fontHigh : List Byte :=
  [0xF0, 0x90, 0xF0, 0x90, 0xF0] ++ [0xF0, 0x90, 0xF0, 0x10, 0xF0] ++
  [0xF0, 0x90, 0xF0, 0x90, 0x90] ++ [0xE0, 0x90, 0xE0, 0x90, 0xE0] ++
  [0xF0, 0x80, 0x80, 0x80, 0xF0] ++ [0xE0, 0x90, 0x90, 0x90, 0xE0] ++
  [0xF0, 0x80, 0xF0, 0x80, 0xF0] ++ [0xF0, 0x80, 0xF0, 0x80, 0x80]

/-- The default `FONT`, the table of R55: 80 bytes, 5 for each digit 0 to F (log 9). -/
def font : Font := ⟨(fontLow ++ fontHigh).toArray, by decide⟩

/-- The defaults of R5: `STACK_DEPTH` 16 (D5; log 10), `BNNN_WRAP` true (D2; log 11), `FONT` the table of R55 (D22;
log 9). -/
def defaultParams : Params := { stackDepth := 16, bnnnWrap := true, font := font }

end Sys2Proof.Machine
end

