-- ==== Sys2Proof/Machine/State.lean ====
section
/-! DEFINITION. The state of the machine (10_state.md) as plain data, why it can stop, and its reset value. -/

namespace Sys2Proof.Machine

/-- The five error kinds (60_exceptions.md R170). -/
inductive ErrorKind where
  /-- A memory access beyond [0, 4096): the fetch, DXYN, FX33, FX55, FX65 (R171). -/
  | outOfBounds
  /-- A fetched word that matches no row of the opcode map (R172). -/
  | unknownOpcode
  /-- EX9E or EXA1 with a key code above 0x0F (R173). -/
  | invalidKey
  /-- 00EE on an empty stack (R174). -/
  | stackUnderflow
  /-- 2NNN on a full stack (R175). -/
  | stackOverflow
deriving DecidableEq, Repr

/-- The error record (R20): the kind, and the `pc` of the failing step (`at`). -/
structure ErrorRecord where
  kind : ErrorKind
  pcAt : Word
deriving DecidableEq, Repr

/-- The execution mode (R19). -/
inductive Mode where
  /-- `RUNNING`: the CPU agent executes one instruction a step. -/
  | running
  /-- `WAITING_FOR_KEY`: entered by FX0A, left by a key-down; nothing is fetched. -/
  | waitingForKey
  /-- `HALTED`: entered by an error, left by reset only; nothing is fetched. -/
  | halted
deriving DecidableEq, Repr

/-- The transitions of the whole machine (70_reset_and_hazards.md R206), as entries of `State.schedule`. -/
inductive Transition where
  /-- `Step` of the CPU agent (R205). -/
  | step
  /-- `Tick` of the timer agent (R185). -/
  | tick
  /-- `KeyDown(k)` of the host (R189). -/
  | keyDown (k : Key)
  /-- `KeyUp(k)` of the host (R189). -/
  | keyUp (k : Key)
  /-- `Reset(image)` of the host (R200). -/
  | reset (image : List Byte)
  /-- The host observes `fb`, `DT`, `ST`, `mode`, `err`, with no effect (R26, R206). -/
  | observe
deriving DecidableEq, Repr

/-- Memory: the bytes that differ from what an unlisted address reads as, by rising address (Machine/Ops.lean). -/
abbrev Memory := List Host.Cell

/-- The framebuffer: 32 rows of 64 one-bit cells, `fb[y][x]` (R22, R140). -/
abbrev Framebuffer := Vector (Vector Bool 64) 32

/-- The state of the machine (10_state.md). The last four fields are the model's own (log 1, log 6, log 29). -/
structure State where
  /-- The general registers V0 to VF (R10); VF = `V[15]` is also the flag output (R12). -/
  V : Vector Byte 16
  /-- The index register (R14). -/
  I : Word
  /-- The program counter (R13). -/
  pc : Word
  /-- The return-address stack, top first; `depth` is its length (R15). -/
  stack : List Word
  /-- The 4096 bytes of memory (R40). -/
  mem : Memory
  /-- The framebuffer (R22). -/
  fb : Framebuffer
  /-- The delay timer (R17). -/
  DT : Byte
  /-- The sound timer (R18). -/
  ST : Byte
  /-- The execution mode (R19). -/
  mode : Mode
  /-- The error record (R20). -/
  err : Option ErrorRecord
  /-- The `X` field of the FX0A that is waiting (R21). -/
  kx : Reg
  /-- The key levels, owned by the host (R23, R189). -/
  keys : Vector Bool 16
  /-- The transitions to come, oldest first: one interleaving of the agents (R206; log 1). -/
  schedule : List Transition
  /-- The random samples the host has supplied, next first (R24; log 6). -/
  samples : List Byte
  /-- How many samples were taken as the free value `Config.freeSample` (R24; log 6). -/
  drawn : Nat
  /-- The arguments of this machine, fixed for it: no transition changes them (R5; log 29). -/
  params : Params
deriving DecidableEq, Repr

/-- Why a step answers no next state. No instruction ends in one: an error of the spec is a next state (R177). -/
inductive Fault where
  /-- Raised by `step` alone, when `mode` is HALTED and nothing is scheduled: the CPU agent has no step (R205) and the
  error record is reported to the caller (R20, R177). Safe: the machine stops where the spec gives it no transition of
  its own (log 3). -/
  | halted (report : Option ErrorRecord)
  /-- Raised by the transition `Reset(image)` alone, when the image is longer than 3584 bytes: the host's load fails
  with OutOfBounds and the core is not started (R202, D28). Safe (log 15). -/
  | imageTooLong
deriving DecidableEq, Repr

/-- Why the model refuses to run something. -/
inductive Refusal where
  /-- Raised by an arm of `exec` for an instruction that has no meaning yet. Safe. No arm raises it. -/
  | notModelled (mnemonic : String)
deriving DecidableEq, Repr

/-- What a meaning and a step answer. -/
abbrev Result := Host.Outcome State Fault Refusal

/-- The machine with the arguments `p` right after reset with an empty program image (R5, R27, R200): every value is the
table's of R27, but for `keys`, which the host owns (log 12), and the model's own last four fields (log 1, log 6,
log 29). Memory lists nothing: an unlisted address reads as the font of `p` or as 0x00 (R48). -/
def State.resetFor (p : Params) : State where
  V := Vector.replicate 16 0x00
  I := 0x0000
  pc := 0x0200
  stack := []
  mem := []
  fb := Vector.replicate 32 (Vector.replicate 64 false)
  DT := 0x00
  ST := 0x00
  mode := .running
  err := none
  kx := 0
  keys := Vector.replicate 16 false
  schedule := []
  samples := []
  drawn := 0
  params := p

/-- The machine with the default arguments of R5 right after reset with an empty program image (R27, R200). -/
def State.reset : State := State.resetFor defaultParams

end Sys2Proof.Machine
end

