-- ==== Sys2Proof/Machine/Ops.lean ====
section
/-! DEFINITION. The named operations over memory, registers, stack and inputs, and taking an error: the primitives of
00_scope.md R7. -/

namespace Sys2Proof.Machine

/-! ### Memory (20_memory.md) -/

/-- What an address reads as when nothing is listed for it: the contents at boot, the font table of the machine at 0x050
to 0x09F, else 0x00 (R48, R55; log 8). -/
def Memory.unlisted (font : Font) (a : Nat) : Byte :=
  if Config.fontBase ≤ a then (font[a - Config.fontBase]?).getD 0x00 else 0x00

/-- The canonical form from address `lo` on: addresses strictly rising and below 4096, and no entry equal to what an
unlisted address reads as. -/
def Memory.wfFrom (font : Font) (lo : Nat) : Memory → Bool
  | [] => true
  | (a, v) :: m =>
    decide (lo ≤ a) && decide (a < Config.memSize) && decide (v ≠ Memory.unlisted font a) &&
      Memory.wfFrom font (a + 1) m

/-- The canonical form of a memory: equal contents are then equal data. -/
def Memory.wf (font : Font) (m : Memory) : Bool := Memory.wfFrom font 0 m

/-- One byte of memory (R40). -/
def Memory.read (font : Font) : Memory → Nat → Byte
  | [], a => Memory.unlisted font a
  | (b, w) :: m, a => if b = a then w else Memory.read font m a

/-- Writing one byte: writing what an unlisted address reads as removes the entry. -/
def Memory.write (font : Font) : Memory → Nat → Byte → Memory
  | [], a, v => if v = Memory.unlisted font a then [] else [(a, v)]
  | (b, w) :: m, a, v =>
    if b < a then (b, w) :: Memory.write font m a v
    else
      let rest := if b = a then m else (b, w) :: m
      if v = Memory.unlisted font a then rest else (a, v) :: rest

/-- The `n` bytes from `a` up, in increasing address (R44). -/
def Memory.readBytes (font : Font) (m : Memory) (a : Nat) : Nat → List Byte
  | 0 => []
  | n + 1 => Memory.read font m a :: Memory.readBytes font m (a + 1) n

/-- Storing bytes from `a` up, in increasing address (R44). -/
def Memory.writeBytes (font : Font) (m : Memory) (a : Nat) : List Byte → Memory
  | [] => m
  | b :: bs => Memory.writeBytes font (Memory.write font m a b) (a + 1) bs

/-- `MemRead(addr, n)`: the test is on the whole range before any byte is returned (R41). -/
def memRead (font : Font) (m : Memory) (addr n : Nat) : Except ErrorKind (List Byte) :=
  if addr + n > Config.memSize then .error .outOfBounds else .ok (m.readBytes font addr n)

/-- `MemWrite(addr, n, b)` with `n` the length of `b`: the test is on the whole range before any byte is stored, and a
write that fails stores nothing (R42, D7; log 18). -/
def memWrite (font : Font) (m : Memory) (addr : Nat) (bs : List Byte) : Except ErrorKind Memory :=
  if addr + bs.length > Config.memSize then .error .outOfBounds else .ok (m.writeBytes font addr bs)

/-- One byte of this machine's memory (R40). -/
def State.byte (s : State) (a : Nat) : Byte := s.mem.read s.params.font a

/-- The canonical form of this machine's memory. -/
def State.memWf (s : State) : Bool := s.mem.wf s.params.font

/-- `Fetch(pc)`: two bytes, the one at the lower address the high half (R43, R44). -/
def fetch (s : State) : Except ErrorKind Word :=
  if s.pc.toNat + 2 > Config.memSize then .error .outOfBounds
  else .ok (wordOfBytes (s.byte s.pc.toNat) (s.byte (s.pc.toNat + 1)))

/-! ### Registers (10_state.md) -/

/-- The register VF, written as a flag (R12). -/
def VF : Reg := 15

/-- `V[i]` (R7, R10). -/
def State.getV (s : State) (r : Reg) : Byte := s.V[r.val]'r.isLt

/-- `V[i] <- v` (R7, R10). -/
def State.setV (s : State) (r : Reg) (v : Byte) : State := { s with V := s.V.set r.val v r.isLt }

/-- `I <- a` (R7). -/
def State.setI (s : State) (a : Word) : State := { s with I := a }

/-- `pc <- target` (R7, R13). -/
def State.setPc (s : State) (a : Word) : State := { s with pc := a }

/-- `pc <- pc + 2`, in 16 bits (R13, R80(a); log 19). -/
def State.advance (s : State) : State := { s with pc := s.pc + 2 }

/-- The `pc` of a skip: `pc + 4` when the condition holds, else `pc + 2`, in 16 bits (R80(b)). -/
def State.skipIf (s : State) (c : Bool) : State := { s with pc := if c then s.pc + 4 else s.pc + 2 }

/-- `DT <- v` (R17). -/
def State.setDT (s : State) (v : Byte) : State := { s with DT := v }

/-- `ST <- v` (R18). -/
def State.setST (s : State) (v : Byte) : State := { s with ST := v }

/-- Memory replaced (R54: by FX33 and FX55 only). -/
def State.setMem (s : State) (m : Memory) : State := { s with mem := m }

/-- The framebuffer replaced (R22: by CLS and DRW only). -/
def State.setFb (s : State) (fb : Framebuffer) : State := { s with fb := fb }

/-- `kx <- X; mode <- WAITING_FOR_KEY`; `pc` is not changed (R152). -/
def State.waitForKey (s : State) (x : Reg) : State := { s with kx := x, mode := .waitingForKey }

/-- `V[k] <- b[0], V[k+1] <- b[1], ...` as far as there are registers (R126). -/
def regsLoadedFrom (V : Vector Byte 16) (k : Nat) : List Byte → Vector Byte 16
  | [] => V
  | b :: bs => regsLoadedFrom (V.setIfInBounds k b) (k + 1) bs

/-- `V[i] <- b[i]` for every `i` of the bytes (R126). -/
def State.loadRegs (s : State) (bs : List Byte) : State := { s with V := regsLoadedFrom s.V 0 bs }

/-! ### Stack (10_state.md R15, R16) -/

/-- `push(a)`, with `STACK_DEPTH` as an argument (R16). -/
def State.push (depth : Nat) (s : State) (a : Word) : Except ErrorKind State :=
  if s.stack.length ≥ depth then .error .stackOverflow else .ok { s with stack := a :: s.stack }

/-- `pop()`: the removed top entry and the state without it (R16). -/
def State.pop (s : State) : Except ErrorKind (Word × State) :=
  match s.stack with
  | [] => .error .stackUnderflow
  | a :: rest => .ok (a, { s with stack := rest })

/-! ### Inputs (10_state.md R23, R24) -/

/-- `keys[k]`, the level of a logical key (R23). -/
def State.key (s : State) (k : Key) : Bool := s.keys[k.val]'k.isLt

/-- The level of a logical key raised or lowered by the host (R189). -/
def State.setKey (s : State) (k : Key) (b : Bool) : State := { s with keys := s.keys.set k.val b k.isLt }

/-- `rnd()`: the next sample the host supplied, or the free value when none is listed (R24; log 6). -/
def State.sample (s : State) : Byte :=
  match s.samples with
  | r :: _ => r
  | [] => Config.freeSample s.drawn

/-- The state after one sample is taken: no sample is taken twice (R24; log 6). -/
def State.sampleTaken (s : State) : State :=
  match s.samples with
  | _ :: rest => { s with samples := rest }
  | [] => { s with drawn := s.drawn + 1 }

/-! ### Error entry (60_exceptions.md R177) -/

/-- `raise K`: `err <- (K, pc)` and `mode <- HALTED`, and no other effect. There is no return from it: HALTED is left by
reset only (R179). -/
def State.raise (s : State) (k : ErrorKind) : State :=
  { s with err := some ⟨k, s.pc⟩, mode := .halted }

/-- How an instruction that began in state `s` ends: its checks come before its writes, so it ends in the state it built
or, raising, in the error entry from `s` itself (R177, R178; log 5, log 18). -/
def State.complete (s : State) : Except ErrorKind State → Result
  | .ok t => .next t
  | .error k => .next (s.raise k)

/-! ### Placing a word where the machine fetches -/

/-- The state that fetches the word `w` at its next step: RUNNING, nothing scheduled before the CPU's step, `pc` kept
where a fetch is possible (else 0x200), and the two bytes of `w` there (log 14). -/
def State.placeWord (s : State) (w : Word) : State :=
  let p : Word := if s.pc.toNat + 2 > Config.memSize then 0x0200 else s.pc
  { s with
    pc := p
    mode := .running
    err := if s.mode = .halted then none else s.err
    schedule := []
    mem := s.mem.writeBytes s.params.font p.toNat (bytesOfWord w) }

end Sys2Proof.Machine
end

