-- ==== Sys2Proof/Machine/Operands.lean ====
section
/-! DEFINITION. Operand forms and address computations (30_encoding.md R62; 42_index_memory.md R120 to R126; 40 R88;
44 R150). -/

namespace Sys2Proof.Machine

/-- `zext_16(NNN)`: a jump target or a value for `I` (R62). -/
def zextNNN (nnn : Imm12) : Word := nnn.setWidth 16

/-- `zext_16(V[i])` (R88, R122). -/
def zextByte (b : Byte) : Word := b.setWidth 16

/-- The target of BNNN: `V0 + NNN`, reduced modulo 4096 when `BNNN_WRAP` is true (R88, D2; log 11). -/
def jpV0Target (wrap : Bool) (v0 : Byte) (nnn : Imm12) : Word :=
  let sum := v0.toNat + nnn.toNat
  BitVec.ofNat 16 (if wrap then sum % Config.memSize else sum)

/-- The index after FX1E: `(I + Vx) mod 4096` (R122). -/
def indexSum (i : Word) (v : Byte) : Word := BitVec.ofNat 16 ((i.toNat + v.toNat) % Config.memSize)

/-- The glyph address of FX29: `FONT_BASE + Vx × 5` on the whole byte (R123, D11; log 20). -/
def glyphAddress (v : Byte) : Word := BitVec.ofNat 16 (Config.fontBase + v.toNat * Config.glyphSize)

/-- The address of byte 0 of a data access: `I`, as an integer that is never reduced modulo 4096 (R120). -/
def dataAddress (s : State) : Nat := s.I.toNat

/-- The number of registers that `X` selects as a count: registers 0 to X, inclusive (R125, R126). -/
def regCount (x : Reg) : Nat := x.val + 1

/-- `[V[0], V[1], ..., V[X]]` (R125). -/
def regBytes (s : State) (x : Reg) : List Byte := s.V.toList.take (regCount x)

/-- The three decimal digits of a byte: hundreds, tens, ones (R124). -/
def bcdDigits (v : Byte) : List Byte :=
  [BitVec.ofNat 8 (v.toNat / 100), BitVec.ofNat 8 (v.toNat / 10 % 10), BitVec.ofNat 8 (v.toNat % 10)]

/-- The logical key that a whole byte names, or InvalidKey above 0x0F (R150, R151). -/
def keyOf (v : Byte) : Except ErrorKind Key :=
  if h : v.toNat < 16 then .ok ⟨v.toNat, h⟩ else .error .invalidKey

/-- The column of a sprite's origin: `V[X] mod 64` (R142). -/
def originX (v : Byte) : Nat := v.toNat % Config.fbWidth

/-- The row of a sprite's origin: `V[Y] mod 32` (R142). -/
def originY (v : Byte) : Nat := v.toNat % Config.fbHeight

end Sys2Proof.Machine
end

