-- ==== Sys2Proof/Machine/Flags.lean ====
section
/-! DEFINITION. The flag computations (10_state.md R12; 41_load_alu.md R100, R107 to R111, R113). -/

namespace Sys2Proof.Machine

/-- A flag as an 8-bit value: 0x00 or 0x01 (R12). -/
def flagByte (b : Bool) : Byte := if b then 0x01 else 0x00

/-- The carry out of an 8-bit add, from the sum before truncation (R107). -/
def carryOut (a b : Byte) : Bool := decide (a.toNat + b.toNat > 255)

/-- No borrow in `a − b`: `a ≥ b`, unsigned (R108, R110). -/
def notBorrow (a b : Byte) : Bool := decide (a.toNat ≥ b.toNat)

/-- The bit shifted out at the bottom: bit 0 before the shift (R109). -/
def shiftedOutLow (a : Byte) : Bool := a.getLsbD 0

/-- The bit shifted out at the top: bit 7 before the shift (R111). -/
def shiftedOutHigh (a : Byte) : Bool := a.getLsbD 7

/-- Result to `V[X]` first, flag to VF last, so VF holds the flag when `X` = 15 (R113, D6; log 17). -/
def State.setResultAndFlag (s : State) (x : Reg) (result : Byte) (flag : Bool) : State :=
  (s.setV x result).setV VF (flagByte flag)

end Sys2Proof.Machine
end

