-- ==== Sys2Proof/Machine/Alu.lean ====
section
/-! DEFINITION. Register load, arithmetic, bitwise, shift and random instructions (41_load_alu.md R100 to R113). Each
ends with `pc <- pc + 2` and none can raise an error. -/

namespace Sys2Proof.Machine

/-- The shape of an instruction that writes `V[X]` alone (R101 to R106). -/
def State.withResult (s : State) (x : Reg) (v : Byte) : Result :=
  .next (s.setV x v).advance

/-- The shape of an instruction that writes `V[X]` and then the flag (R107 to R111, R113). -/
def State.withResultAndFlag (s : State) (x : Reg) (v : Byte) (flag : Bool) : Result :=
  .next (s.setResultAndFlag x v flag).advance

/-- 6XNN LD: `V[X] <- NN` (R101). -/
def execLdI (x : Reg) (nn : Byte) (s : State) : Result :=
  s.withResult x nn

/-- 7XNN ADD: `V[X] <- trunc_8(V[X] + NN)`, no flag (R102). -/
def execAddI (x : Reg) (nn : Byte) (s : State) : Result :=
  s.withResult x (s.getV x + nn)

/-- 8XY0 LD: `V[X] <- V[Y]` (R103). -/
def execLdR (x y : Reg) (s : State) : Result :=
  s.withResult x (s.getV y)

/-- 8XY1 OR, no flag (R104). -/
def execBitOr (x y : Reg) (s : State) : Result :=
  s.withResult x (s.getV x ||| s.getV y)

/-- 8XY2 AND, no flag (R105). -/
def execBitAnd (x y : Reg) (s : State) : Result :=
  s.withResult x (s.getV x &&& s.getV y)

/-- 8XY3 XOR, no flag (R106). -/
def execBitXor (x y : Reg) (s : State) : Result :=
  s.withResult x (s.getV x ^^^ s.getV y)

/-- 8XY4 ADD: VF = carry (R107). -/
def execAddR (x y : Reg) (s : State) : Result :=
  s.withResultAndFlag x (s.getV x + s.getV y) (carryOut (s.getV x) (s.getV y))

/-- 8XY5 SUB: `V[X] <- V[X] − V[Y]`, VF = not-borrow (R108). -/
def execSub (x y : Reg) (s : State) : Result :=
  s.withResultAndFlag x (s.getV x - s.getV y) (notBorrow (s.getV x) (s.getV y))

/-- 8XY6 SHR: in place, `V[Y]` is not read; VF = the bit shifted out (R109). -/
def execShr (x : Reg) (s : State) : Result :=
  s.withResultAndFlag x (s.getV x >>> 1) (shiftedOutLow (s.getV x))

/-- 8XY7 SUBN: `V[X] <- V[Y] − V[X]`, VF = not-borrow (R110). -/
def execSubn (x y : Reg) (s : State) : Result :=
  s.withResultAndFlag x (s.getV y - s.getV x) (notBorrow (s.getV y) (s.getV x))

/-- 8XYE SHL: in place, `V[Y]` is not read; VF = the bit shifted out (R111). -/
def execShl (x : Reg) (s : State) : Result :=
  s.withResultAndFlag x (s.getV x <<< 1) (shiftedOutHigh (s.getV x))

/-- CXNN RND: `V[X] <- rnd() and NN` (R112; log 6). -/
def execRnd (x : Reg) (nn : Byte) (s : State) : Result :=
  s.sampleTaken.withResult x (s.sample &&& nn)

end Sys2Proof.Machine
end

