-- ==== Sys2Proof/Machine/ControlFlow.lean ====
section
/-! DEFINITION. Control transfer (40_control_flow.md R80 to R88). -/

namespace Sys2Proof.Machine

/-- 00EE RET: `a <- pop(); pc <- a + 2` (R81). -/
def execRet (s : State) : Result :=
  s.complete (s.pop.map fun (a, t) => t.setPc (a + 2))

/-- 1NNN JP: `pc <- zext_16(NNN)` (R82). -/
def execJp (nnn : Imm12) (s : State) : Result :=
  .next (s.setPc (zextNNN nnn))

/-- 2NNN CALL: `push(pc); pc <- zext_16(NNN)`; what is pushed is the address of the CALL itself (R83). -/
def execCall (nnn : Imm12) (s : State) : Result :=
  s.complete ((s.push s.params.stackDepth s.pc).map fun t => t.setPc (zextNNN nnn))

/-- 3XNN SE: skip if `V[X] = NN` (R84). -/
def execSeI (x : Reg) (nn : Byte) (s : State) : Result :=
  .next (s.skipIf (decide (s.getV x = nn)))

/-- 4XNN SNE: skip if `V[X] ≠ NN` (R85). -/
def execSneI (x : Reg) (nn : Byte) (s : State) : Result :=
  .next (s.skipIf (decide (s.getV x ≠ nn)))

/-- 5XY0 SE: skip if `V[X] = V[Y]` (R86). -/
def execSeR (x y : Reg) (s : State) : Result :=
  .next (s.skipIf (decide (s.getV x = s.getV y)))

/-- 9XY0 SNE: skip if `V[X] ≠ V[Y]` (R87). -/
def execSneR (x y : Reg) (s : State) : Result :=
  .next (s.skipIf (decide (s.getV x ≠ s.getV y)))

/-- BNNN JP V0: `pc <- (V[0] + NNN) mod 4096`, the reduction left out when `BNNN_WRAP` is false; the register is
always V0 (R88). -/
def execJpV0 (nnn : Imm12) (s : State) : Result :=
  .next (s.setPc (jpV0Target s.params.bnnnWrap (s.getV 0) nnn))

end Sys2Proof.Machine
end

