-- ==== Sys2Proof/Machine/Display.lean ====
section
/-! DEFINITION. Framebuffer instructions (43_display.md R140 to R143). -/

namespace Sys2Proof.Machine

/-- The framebuffer with every cell 0 (R141). -/
def clearedFb : Framebuffer := Vector.replicate 32 (Vector.replicate 64 false)

/-- The cell `fb[y][x]`, for any `y` and `x`; outside the 32 rows and 64 columns there is no cell, and this answers
false (R140). -/
def cell (fb : Framebuffer) (y x : Nat) : Bool :=
  if h : y < 32 ∧ x < 64 then (fb[y]'h.1)[x]'h.2 else false

/-- A draw in progress: the framebuffer and the collision indicator `c` (R142). -/
structure Draw where
  fb : Framebuffer
  c  : Bool
deriving DecidableEq, Repr

/-- One pixel of the blit: dropped off the right or bottom edge, else XORed in, and a collision when a set cell becomes
unset (R142). -/
def drawPixel (y x : Nat) (b : Bool) (d : Draw) : Draw :=
  if h : y < 32 ∧ x < 64 then
    let old := (d.fb[y]'h.1)[x]'h.2
    { fb := d.fb.set y ((d.fb[y]'h.1).set x (old ^^ b) h.2) h.1, c := d.c || (b && old) }
  else d

/-- The pixels `k` to 7 of a sprite byte, where `todo` = 8 − k: bit 7 of the byte is the leftmost pixel (R140, D15;
log 21). -/
def drawPixels (byte : Byte) (y x0 : Nat) : Nat → Draw → Draw
  | 0, d => d
  | todo + 1, d =>
    drawPixels byte y x0 todo (drawPixel y (x0 + (7 - todo)) (byte.getLsbD todo) d)

/-- One row of the sprite: the 8 pixels of its byte (R142). -/
def drawRow (byte : Byte) (y x0 : Nat) (d : Draw) : Draw := drawPixels byte y x0 8 d

/-- The rows of the sprite, each one row lower than the last (R142). -/
def drawRows (y x0 : Nat) : List Byte → Draw → Draw
  | [], d => d
  | byte :: rows, d => drawRows (y + 1) x0 rows (drawRow byte y x0 d)

/-- `draw_sprite(origin_x, origin_y, rows)`, starting with no collision (R142, R190). -/
def drawSprite (fb : Framebuffer) (y0 x0 : Nat) (rows : List Byte) : Draw :=
  drawRows y0 x0 rows { fb := fb, c := false }

/-- The state after a draw: the framebuffer, and VF the collision indicator (R142). -/
def State.afterDraw (s : State) (d : Draw) : State := (s.setFb d.fb).setV VF (flagByte d.c)

/-- 00E0 CLS: every cell 0 (R141). -/
def execCls (s : State) : Result :=
  .next (s.setFb clearedFb).advance

/-- DXYN DRW: `N` bytes at `I` as a sprite at (`V[X] mod 64`, `V[Y] mod 32`), both registers read before VF is
written (R142). -/
def execDrw (x y : Reg) (n : Nibble) (s : State) : Result :=
  s.complete ((memRead s.params.font s.mem (dataAddress s) n.toNat).map fun rows =>
    (s.afterDraw (drawSprite s.fb (originY (s.getV y)) (originX (s.getV x)) rows)).advance)

end Sys2Proof.Machine
end

