-- ==== Sys2Proof/Machine/IndexMemory.lean ====
section
/-! DEFINITION. Index register and memory instructions (42_index_memory.md R120 to R126). None writes VF as a flag, and
no memory instruction changes `I`. -/

namespace Sys2Proof.Machine

/-- ANNN LD I: `I <- zext_16(NNN)` (R121). -/
def execLdIdx (nnn : Imm12) (s : State) : Result :=
  .next (s.setI (zextNNN nnn)).advance

/-- FX1E ADD I: `I <- (I + V[X]) mod 4096`, no flag (R122). -/
def execAddIdx (x : Reg) (s : State) : Result :=
  .next (s.setI (indexSum s.I (s.getV x))).advance

/-- FX29 LD F: `I <- FONT_BASE + V[X] × 5` (R123). -/
def execLdF (x : Reg) (s : State) : Result :=
  .next (s.setI (glyphAddress (s.getV x))).advance

/-- Storing bytes at `I`, as FX33 and FX55 do (R124, R125). -/
def State.storeAtI (s : State) (bs : List Byte) : Result :=
  s.complete ((memWrite s.params.font s.mem (dataAddress s) bs).map fun m => (s.setMem m).advance)

/-- FX33 LD B: the decimal digits of `V[X]` to `I`, `I + 1`, `I + 2` (R124). -/
def execLdB (x : Reg) (s : State) : Result :=
  s.storeAtI (bcdDigits (s.getV x))

/-- FX55 LD [I]: registers V0 to VX to memory at `I` (R125). -/
def execStRegs (x : Reg) (s : State) : Result :=
  s.storeAtI (regBytes s x)

/-- FX65 LD Vx: registers V0 to VX from memory at `I` (R126). -/
def execLdRegs (x : Reg) (s : State) : Result :=
  s.complete ((memRead s.params.font s.mem (dataAddress s) (regCount x)).map fun bs => (s.loadRegs bs).advance)

end Sys2Proof.Machine
end

