-- ==== Sys2Proof/Machine/KeypadTimers.lean ====
section
/-! DEFINITION. Keypad and timer instructions (44_keypad_timers.md R150 to R156). None writes VF as a flag. -/

namespace Sys2Proof.Machine

/-- EX9E SKP: skip if the key named by the whole byte `V[X]` is pressed; InvalidKey above 0x0F (R150). -/
def execSkp (x : Reg) (s : State) : Result :=
  s.complete ((keyOf (s.getV x)).map fun k => s.skipIf (s.key k))

/-- EXA1 SKNP: skip if it is not pressed; InvalidKey above 0x0F (R151). -/
def execSknp (x : Reg) (s : State) : Result :=
  s.complete ((keyOf (s.getV x)).map fun k => s.skipIf (!s.key k))

/-- FX0A LD Vx, K: entry of the wait; the resume is `keyDown` of Machine/Agents.lean (R152, R153). -/
def execLdVxK (x : Reg) (s : State) : Result :=
  .next (s.waitForKey x)

/-- FX07 LD Vx, DT (R154). -/
def execLdVxDt (x : Reg) (s : State) : Result :=
  .next (s.setV x s.DT).advance

/-- FX15 LD DT, Vx (R155). -/
def execLdDtVx (x : Reg) (s : State) : Result :=
  .next (s.setDT (s.getV x)).advance

/-- FX18 LD ST, Vx (R156). -/
def execLdStVx (x : Reg) (s : State) : Result :=
  .next (s.setST (s.getV x)).advance

end Sys2Proof.Machine
end

