-- ==== Sys2Proof/Machine/Agents.lean ====
section
/-! DEFINITION. The transitions of the three agents (60_exceptions.md R185 to R197; 70_reset_and_hazards.md R200 to
R206). -/

namespace Sys2Proof.Machine

/-! ### The CPU agent -/

/-- The step of the CPU agent in RUNNING: fetch, decode, execute, the first check that fails being the one
reported (R205, R176). -/
def cpuStep (s : State) : Result :=
  match fetch s with
  | .error k => .next (s.raise k)
  | .ok w =>
    match decode w with
    | .error _ => .next (s.raise .unknownOpcode)
    | .ok i => exec i s

/-! ### The timer agent -/

/-- A timer after one tick: down by 1 if nonzero (R185). -/
def countDown (v : Byte) : Byte := if v = 0 then v else v - 1

/-- `Tick`: both timers, each if nonzero, in every mode (R185, D17; log 24). -/
def tick (s : State) : State := { s with DT := countDown s.DT, ST := countDown s.ST }

/-! ### The host -/

/-- The resume that completes FX0A: `V[kx] <- k; pc <- pc + 2; mode <- RUNNING` (R153). -/
def State.resume (s : State) (k : Key) : State :=
  { (s.setV s.kx (BitVec.ofNat 8 k.val)).advance with mode := .running }

/-- `KeyDown(k)`, enabled when `keys[k]` is false: the level is raised, and a waiting core resumes (R189, R206). Where
it is not enabled it does not happen (log 4). -/
def keyDown (s : State) (k : Key) : State :=
  if s.key k then s
  else
    match s.mode with
    | .waitingForKey => (s.setKey k true).resume k
    | .running => s.setKey k true
    | .halted => s.setKey k true

/-- `KeyUp(k)`, enabled when `keys[k]` is true: the level is lowered, and nothing else (R189, R206). Where it is not
enabled it does not happen (log 4). -/
def keyUp (s : State) (k : Key) : State :=
  if s.key k then s.setKey k false else s

/-- The state after `Reset(image)`: every piece of state at its value of R27, the image at 0x200, the machine's
font table as memory reads with nothing listed; the host's own inputs (key levels, schedule, samples) and the machine's
arguments stay (R200, R202; log 12, log 29). -/
def State.booted (s : State) (image : List Byte) : State :=
  { State.resetFor s.params with
    mem := Memory.writeBytes s.params.font [] Config.progBase image
    keys := s.keys
    schedule := s.schedule
    samples := s.samples
    drawn := s.drawn }

/-- `Reset(image)`, at any boundary and in any mode; an image that does not fit makes the host's load fail, and the core
is not started (R200, R202, D28; log 15). -/
def resetWith (s : State) (image : List Byte) : Result :=
  if wellFormedImage image then .next (s.booted image) else .fault .imageTooLong

/-- What the host can observe at a boundary (R26). -/
structure Outputs where
  fb   : Framebuffer
  DT   : Byte
  ST   : Byte
  mode : Mode
  err  : Option ErrorRecord
deriving DecidableEq, Repr

/-- The outputs of a state: the framebuffer snapshot, both timers, the mode and the error report (R26, R191). -/
def observe (s : State) : Outputs := { fb := s.fb, DT := s.DT, ST := s.ST, mode := s.mode, err := s.err }

/-! ### The numeric codes of the error kinds -/

/-- The code of an error kind, a label (R170, D31). -/
def ErrorKind.code : ErrorKind → Nat
  | .outOfBounds => 1
  | .unknownOpcode => 2
  | .invalidKey => 3
  | .stackUnderflow => 4
  | .stackOverflow => 5

/-! ### One transition of the whole machine -/

/-- A scheduled transition, in the state that no longer lists it. A `Step` that is not enabled (the mode is not RUNNING,
R205) does not happen (log 4). -/
def perform (t : Transition) (s : State) : Result :=
  match t with
  | .step => if s.mode = .running then cpuStep s else .next s
  | .tick => .next (tick s)
  | .keyDown k => .next (keyDown s k)
  | .keyUp k => .next (keyUp s k)
  | .reset image => resetWith s image
  | .observe => .next s

/-- What happens when nothing is scheduled: the CPU agent's step in RUNNING; nothing in WAITING_FOR_KEY, which only a
key-down or a reset ends (R196; log 2); the stop that reports the error in HALTED (R19, R177; log 3). -/
def unscheduled (s : State) : Result :=
  match s.mode with
  | .running => cpuStep s
  | .waitingForKey => .next s
  | .halted => .fault (.halted s.err)

/-- The next transition of the machine: the first one scheduled, else the CPU agent's own (R206; log 1). -/
def transition (s : State) : Result :=
  match s.schedule with
  | t :: rest => perform t { s with schedule := rest }
  | [] => unscheduled s

end Sys2Proof.Machine
end

