-- ==== Sys2Proof/Machine/Step.lean ====
section
/-! DEFINITION. One step of the machine: one transition of 70_reset_and_hazards.md R206. All its parts stand in
Machine/Agents.lean and Machine/Ops.lean. -/

namespace Sys2Proof.Machine

/-- One transition of the whole machine (R206). -/
def step (s : State) : Host.Outcome State Fault Refusal := transition s

/-- `s` with the instruction whose bits are `w` (numbered from the least significant bit of its one word; bits above
`nbits` are 0) stored where the very next `step` fetches (log 14). -/
def State.withFetchWord (s : State) (nbits w : Nat) : State := s.placeWord (BitVec.ofNat 16 (w % 2 ^ nbits))

end Sys2Proof.Machine
end

