-- ==== Sys2Proof/Safety.lean ====
section
/-! DEFINITION. The terms claims use: what two states agree on, what an instruction may change (its frame), what an error
entry is, the invariant of 10_state.md R29, and what a safe state is. -/

namespace Sys2Proof

/-- Memory is written only by FX33 and FX55 (R54). -/
def Instr.storesToMemory : Instr → Bool
  | .ldB _ => true
  | .stRegs _ => true
  | _ => false

/-- The framebuffer is written only by CLS and DRW (R22, R190). -/
def Instr.writesFramebuffer : Instr → Bool
  | .cls => true
  | .drw _ _ _ => true
  | _ => false

/-- `I` is written by exactly three instructions (R14). -/
def Instr.writesIndex : Instr → Bool
  | .ldIdx _ => true
  | .addIdx _ => true
  | .ldF _ => true
  | _ => false

/-- The stack is written only by CALL and RET (R15). -/
def Instr.writesStack : Instr → Bool
  | .call _ => true
  | .ret => true
  | _ => false

/-- The six instructions that write VF as a flag (R12). -/
def Instr.writesFlag : Instr → Bool
  | .addR _ _ => true
  | .sub _ _ => true
  | .shr _ => true
  | .subn _ _ => true
  | .shl _ => true
  | .drw _ _ _ => true
  | _ => false

/-- A general register that an instruction names as its destination (R11): `V[X]`, or V0 to VX for FX65. -/
def Instr.namesDestination (i : Instr) (r : Reg) : Bool :=
  match i with
  | .ldI x _ => decide (r = x)
  | .addI x _ => decide (r = x)
  | .ldR x _ => decide (r = x)
  | .bitOr x _ => decide (r = x)
  | .bitAnd x _ => decide (r = x)
  | .bitXor x _ => decide (r = x)
  | .addR x _ => decide (r = x)
  | .sub x _ => decide (r = x)
  | .shr x => decide (r = x)
  | .subn x _ => decide (r = x)
  | .shl x => decide (r = x)
  | .rnd x _ => decide (r = x)
  | .ldVxDt x => decide (r = x)
  | .ldRegs x => decide (r ≤ x)
  | _ => false

/-- The instructions that read or write a timer (R17, R18). -/
def Instr.usesTimer : Instr → Bool
  | .ldVxDt _ => true
  | .ldDtVx _ => true
  | .ldStVx _ => true
  | _ => false

/-- The four instructions that read or write memory when they execute (R46). -/
def Instr.touchesMemory : Instr → Bool
  | .drw _ _ _ => true
  | .ldB _ => true
  | .stRegs _ => true
  | .ldRegs _ => true
  | _ => false

/-- The error kind of an instruction's own check, if it has one (R170, R176). -/
def Instr.ownError : Instr → Option Machine.ErrorKind
  | .ret => some .stackUnderflow
  | .call _ => some .stackOverflow
  | .drw _ _ _ => some .outOfBounds
  | .ldB _ => some .outOfBounds
  | .stRegs _ => some .outOfBounds
  | .ldRegs _ => some .outOfBounds
  | .skp _ => some .invalidKey
  | .sknp _ => some .invalidKey
  | _ => none

end Sys2Proof

namespace Sys2Proof.Machine

/-- The parts of the state that a frame speaks of. -/
inductive Part where
  | V | I | pc | stack | mem | fb | DT | ST | mode | err | kx | keys | schedule | random | params
deriving DecidableEq, Repr

/-- Two states agree on a part. Memory agrees when every byte reads the same. -/
def AgreeOn (p : Part) (s t : State) : Prop :=
  match p with
  | .V => ∀ r, t.getV r = s.getV r
  | .I => t.I = s.I
  | .pc => t.pc = s.pc
  | .stack => t.stack = s.stack
  | .mem => ∀ a, t.byte a = s.byte a
  | .fb => t.fb = s.fb
  | .DT => t.DT = s.DT
  | .ST => t.ST = s.ST
  | .mode => t.mode = s.mode
  | .err => t.err = s.err
  | .kx => t.kx = s.kx
  | .keys => t.keys = s.keys
  | .schedule => t.schedule = s.schedule
  | .random => t.samples = s.samples ∧ t.drawn = s.drawn
  | .params => t.params = s.params

/-- From `s` to `t`, everything outside the parts named is unchanged. -/
def Frame (changed : List Part) (s t : State) : Prop := ∀ p, p ∉ changed → AgreeOn p s t

/-- Of the general registers, `V[x]` alone is written, with `v`. -/
def WritesReg (x : Reg) (v : Byte) (s t : State) : Prop :=
  t.getV x = v ∧ ∀ r, r ≠ x → t.getV r = s.getV r

/-- Of the general registers, `V[x]` receives `v` and then VF receives `flag`: with `x` = 15 the flag is what VF holds
(R113). -/
def WritesRegAndFlag (x : Reg) (v flag : Byte) (s t : State) : Prop :=
  t.getV VF = flag ∧ (x ≠ VF → t.getV x = v) ∧ ∀ r, r ≠ x → r ≠ VF → t.getV r = s.getV r

/-- From `s` to `t`, the error entry of kind `k` and no other effect (R177). -/
def EntersError (k : ErrorKind) (s t : State) : Prop :=
  t.err = some ⟨k, s.pc⟩ ∧ t.mode = .halted ∧ Frame [.err, .mode] s t

/-- Of memory, the bytes `bs` are stored from address `a` up, and every other byte reads as before. -/
def StoresBytes (a : Nat) (bs : List Byte) (s t : State) : Prop :=
  (∀ i, (h : i < bs.length) → t.byte (a + i) = bs[i]) ∧
    ∀ b, b < a ∨ a + bs.length ≤ b → t.byte b = s.byte b

/-- The largest value `pc` can take: 0xFFE + 4, or the largest sum of BNNN where it is not reduced (R13, R29). -/
def pcLimit (p : Params) : Nat := if p.bnnnWrap then 0x1002 else 0x10FE

/-- The invariants that hold at every boundary (R29, with R14, R13, R16, R20), the canonical form of memory, and what
makes them hold step by step: a waiting core's `pc` is the address of a fetched FX0A (R152), and the error record holds
the `pc` the halted machine keeps (R177). -/
structure Inv (s : State) : Prop where
  index : s.I.toNat ≤ 0x0FFF
  pcBound : s.pc.toNat ≤ pcLimit s.params
  waitingPc : s.mode = .waitingForKey → s.pc.toNat ≤ 0x0FFE
  depth : s.stack.length ≤ s.params.stackDepth
  entries : ∀ a ∈ s.stack, a.toNat ≤ 0x0FFE
  errorIffHalted : s.err ≠ none ↔ s.mode = .halted
  report : ∀ e, s.err = some e → e.pcAt = s.pc
  memory : s.memWf = true

/-- A safe state: no error has halted the machine. A halted state is never a successful end of a program (R179). -/
def State.safe (s : State) : Bool := decide (s.mode ≠ .halted)

/-- A program idles: the machine runs, and `pc` holds the address of a JP to that same address (R207, D25). -/
def State.Idles (s : State) : Prop :=
  s.mode = .running ∧ ∃ w nnn, fetch s = .ok w ∧ decode w = .ok (.jp nnn) ∧ zextNNN nnn = s.pc

/-- The sprite bit that falls on the cell (x, y): row `y − y0` of the sprite, pixel `x − x0` of its byte, bit 7 leftmost
(R140, R142). -/
def spriteBit (rows : List Byte) (y0 x0 y x : Nat) : Bool :=
  if y0 ≤ y ∧ y - y0 < rows.length ∧ x0 ≤ x ∧ x - x0 < 8 then ((rows[y - y0]?).getD 0).getLsbD (7 - (x - x0))
  else false

/-- The next transition is the CPU agent's step, which executes the instruction `i`: the machine runs, nothing is
scheduled before that step, and the word at `pc` decodes to `i` (R205). -/
def State.Executes (s : State) (i : Instr) : Prop :=
  s.mode = .running ∧ (s.schedule = [] ∨ ∃ rest, s.schedule = .step :: rest) ∧
    ∃ w, fetch s = .ok w ∧ decode w = .ok i

/-- The next transition is `Reset` (R200). -/
def State.Resets (s : State) : Prop := ∃ image rest, s.schedule = .reset image :: rest

/-- The state after `n` ticks (R185). -/
def ticks : Nat → State → State
  | 0, s => s
  | n + 1, s => ticks n (tick s)

end Sys2Proof.Machine
end

