-- ==== Sys2Proof/Certificates/Slice0/Obligations.lean ====
section
/-! DEFINITION. The statements about the machine, from the numbered rules of spec/. A statement about an instruction has as
its conclusion the next state that the instruction answers, with its frame. -/

open Sys2Proof Sys2Proof.Machine

/-! ### Encoding -/

/-- 30 R61, R64: every well-formed instruction, with every operand at every value its field admits, decodes back from the
two bytes of its encoding. The patterns are the spec's general knowledge (G1, G2; log 16). -/
def Obligations.DecodeInvertsEncode : Prop :=
  ∀ i : Instr, i.wellFormed = true → decodeBytes (bytesOfWord (encode i)) = .ok (i, [])

/-- 30 R63, R64, R70: every word selects exactly one row of the opcode map and decodes to an instruction of that row, or
selects none and is an unknown pattern. The patterns are the spec's general knowledge (G1; log 16), the strictness of the
decoder its decisions D8 and D9 (log 22). -/
def Obligations.WordSelectsOneRowOrIsUnknown : Prop :=
  ∀ w : Word,
    (∃ i, decode w = .ok i ∧ i.row ∈ opcodeMap ∧ i.row.selects w = true ∧
      ∀ r ∈ opcodeMap, r.selects w = true → r = i.row) ∨
    (decode w = .error (.unknownPattern w) ∧ ∀ r ∈ opcodeMap, r.selects w = false)

/-- 30 R72: no bit of a word is ignored but the field `Y` of the two shifts, which are the same instruction whatever `Y`
is (they assemble with `Y` = 0, R73). The patterns are the spec's general knowledge (G1; log 16). -/
def Obligations.OnlyShiftsIgnoreAField : Prop :=
  ∀ (w : Word) (i : Instr), decode w = .ok i →
    encode i = if (∃ x, i = .shr x) ∨ (∃ x, i = .shl x) then w &&& 0xFF0F#16 else w

/-- 30 R64: words written out from the opcode map decode to the instructions they stand for, at least one of each family
`T` of 30 R63, and a word with `N` ≠ 0 in family 5 is none (95 G1, T1, T5, T9, T11, T13, A1, A3, S3, A25, T17, M1, T20,
A32, G14, K1, K14, M15, T16). General knowledge G1 (log 16). -/
def Obligations.SpecWordsDecode : Prop :=
  decode 0x00E0 = .ok .cls ∧ decode 0x1ABC = .ok (.jp 0xABC) ∧ decode 0x2300 = .ok (.call 0x300) ∧
  decode 0x332A = .ok (.seI 3 0x2A) ∧ decode 0x432A = .ok (.sneI 3 0x2A) ∧ decode 0x5120 = .ok (.seR 1 2) ∧
  decode 0x6A2F = .ok (.ldI 10 0x2F) ∧ decode 0x7102 = .ok (.addI 1 0x02) ∧ decode 0x8124 = .ok (.addR 1 2) ∧
  decode 0x8126 = .ok (.shr 1) ∧ decode 0x9120 = .ok (.sneR 1 2) ∧ decode 0xA2F0 = .ok (.ldIdx 0x2F0) ∧
  decode 0xB300 = .ok (.jpV0 0x300) ∧ decode 0xC30F = .ok (.rnd 3 0x0F) ∧ decode 0xD125 = .ok (.drw 1 2 5) ∧
  decode 0xE59E = .ok (.skp 5) ∧ decode 0xF207 = .ok (.ldVxDt 2) ∧ decode 0xF255 = .ok (.stRegs 2) ∧
  decode 0x5121 = .error (.unknownPattern 0x5121)

/-! ### Memory and fetch -/

/-- The model's canonical form of memory (not the spec's): two memories in it that read alike at every address are equal
data. -/
def Obligations.CanonicalMemoriesThatReadAlikeAreEqual : Prop :=
  ∀ (font : Font) (m m' : Memory), m.wf font = true → m'.wf font = true →
    (∀ a, m.read font a = m'.read font a) → m = m'

/-- 20 R41: `MemRead` fails as a whole beyond 4096 and otherwise returns the bytes of its range. -/
def Obligations.MemReadReturnsItsRangeOrFails : Prop :=
  ∀ (font : Font) (m : Memory) (addr n : Nat),
    (addr + n > 4096 → memRead font m addr n = .error .outOfBounds) ∧
    (addr + n ≤ 4096 → ∃ bs : List Byte, memRead font m addr n = .ok bs ∧ bs.length = n ∧
      ∀ i, (h : i < bs.length) → bs[i] = m.read font (addr + i))

/-- 20 R42: `MemWrite` fails as a whole beyond 4096 and otherwise stores the bytes of its range and no other, in canonical
form (the model's). That a failing write stores nothing is the spec's decision D7 (log 18). -/
def Obligations.MemWriteStoresItsRangeOrFails : Prop :=
  ∀ (font : Font) (m : Memory) (addr : Nat) (bs : List Byte), m.wf font = true →
    (addr + bs.length > 4096 → memWrite font m addr bs = .error .outOfBounds) ∧
    (addr + bs.length ≤ 4096 → ∃ m', memWrite font m addr bs = .ok m' ∧ m'.wf font = true ∧
      (∀ i, (h : i < bs.length) → m'.read font (addr + i) = bs[i]) ∧
      ∀ b, b < addr ∨ addr + bs.length ≤ b → m'.read font b = m.read font b)

/-- 20 R43: the fetch is big-endian, splits into the four fields of R8, and raises OutOfBounds from 0xFFF up. -/
def Obligations.FetchIsBigEndian : Prop :=
  ∀ s : State,
    (0xFFF ≤ s.pc.toNat → fetch s = .error .outOfBounds) ∧
    (s.pc.toNat ≤ 0xFFE → ∃ w : Word, fetch s = .ok w ∧
      w.extractLsb' 8 8 = s.byte s.pc.toNat ∧ w.extractLsb' 0 8 = s.byte (s.pc.toNat + 1) ∧
      fieldT w = (s.byte s.pc.toNat).extractLsb' 4 4 ∧ fieldX w = (s.byte s.pc.toNat).extractLsb' 0 4 ∧
      fieldY w = (s.byte (s.pc.toNat + 1)).extractLsb' 4 4 ∧
      fieldN w = (s.byte (s.pc.toNat + 1)).extractLsb' 0 4)

/-! ### Register load, arithmetic, bitwise, shift, random -/

/-- 41 R101 to R106: load immediate, add immediate, copy, OR, AND, XOR write `V[X]` and advance `pc` by 2; VF changes only
when `X` selects it. -/
def Obligations.LoadsAddImmediateAndBitwiseWriteVxOnly : Prop :=
  ∀ (s : State) (x y : Reg) (nn : Byte),
    (∃ t, exec (.ldI x nn) s = .next t ∧ WritesReg x nn s t ∧ t.pc = s.pc + 2 ∧ Frame [.V, .pc] s t) ∧
    (∃ t, exec (.addI x nn) s = .next t ∧
      WritesReg x (BitVec.ofNat 8 (((s.getV x).toNat + nn.toNat) % 256)) s t ∧
      t.pc = s.pc + 2 ∧ Frame [.V, .pc] s t) ∧
    (∃ t, exec (.ldR x y) s = .next t ∧ WritesReg x (s.getV y) s t ∧ t.pc = s.pc + 2 ∧ Frame [.V, .pc] s t) ∧
    (∃ t, exec (.bitOr x y) s = .next t ∧ WritesReg x (s.getV x ||| s.getV y) s t ∧
      t.pc = s.pc + 2 ∧ Frame [.V, .pc] s t) ∧
    (∃ t, exec (.bitAnd x y) s = .next t ∧ WritesReg x (s.getV x &&& s.getV y) s t ∧
      t.pc = s.pc + 2 ∧ Frame [.V, .pc] s t) ∧
    (∃ t, exec (.bitXor x y) s = .next t ∧ WritesReg x (s.getV x ^^^ s.getV y) s t ∧
      t.pc = s.pc + 2 ∧ Frame [.V, .pc] s t)

/-- 41 R107: ADD Vx, Vy writes the sum modulo 256 and then the carry of the sum before truncation. That VF ends as the
carry when `X` = 15 is the spec's decision D6 (R113; log 17). -/
def Obligations.AddRegistersWritesSumThenCarry : Prop :=
  ∀ (s : State) (x y : Reg),
    ∃ t, exec (.addR x y) s = .next t ∧
      WritesRegAndFlag x (BitVec.ofNat 8 (((s.getV x).toNat + (s.getV y).toNat) % 256))
        (if (s.getV x).toNat + (s.getV y).toNat > 255 then 1 else 0) s t ∧
      t.pc = s.pc + 2 ∧ Frame [.V, .pc] s t

/-- 41 R108, R110: SUB and SUBN write the difference modulo 256 and then not-borrow, 1 in the equal case. That VF ends
as the flag when `X` = 15 is the spec's decision D6 (R113; log 17). -/
def Obligations.SubtractsWriteDifferenceThenNotBorrow : Prop :=
  ∀ (s : State) (x y : Reg),
    (∃ t, exec (.sub x y) s = .next t ∧
      WritesRegAndFlag x (BitVec.ofInt 8 (((s.getV x).toNat : Int) - (s.getV y).toNat))
        (if (s.getV x).toNat ≥ (s.getV y).toNat then 1 else 0) s t ∧
      t.pc = s.pc + 2 ∧ Frame [.V, .pc] s t) ∧
    (∃ t, exec (.subn x y) s = .next t ∧
      WritesRegAndFlag x (BitVec.ofInt 8 (((s.getV y).toNat : Int) - (s.getV x).toNat))
        (if (s.getV x).toNat > (s.getV y).toNat then 0 else 1) s t ∧
      t.pc = s.pc + 2 ∧ Frame [.V, .pc] s t)

/-- 41 R109, R111: SHR halves and SHL doubles `V[X]` in place, and VF then receives the bit shifted out. That VF
ends as that bit when `X` = 15 is the spec's decision D6 (R113; log 17). -/
def Obligations.ShiftsWriteResultThenBitShiftedOut : Prop :=
  ∀ (s : State) (x : Reg),
    (∃ t, exec (.shr x) s = .next t ∧
      WritesRegAndFlag x (BitVec.ofNat 8 ((s.getV x).toNat / 2)) (BitVec.ofNat 8 ((s.getV x).toNat % 2)) s t ∧
      t.pc = s.pc + 2 ∧ Frame [.V, .pc] s t) ∧
    (∃ t, exec (.shl x) s = .next t ∧
      WritesRegAndFlag x (BitVec.ofNat 8 ((s.getV x).toNat * 2 % 256))
        (BitVec.ofNat 8 ((s.getV x).toNat / 128)) s t ∧
      t.pc = s.pc + 2 ∧ Frame [.V, .pc] s t)

/-- 41 R112: RND writes one sample masked with `NN`, whatever the sample is; no bit outside `NN` is set, and every value
inside `NN` is a possible result. A listed sample is taken off the list and the counter stays; with none listed the value
is the free sample at the counter, which goes up by one, so no sample is taken twice (10 R24). That a sample is free is
the spec's decision D14, the fields that hold it are the model's (log 6). -/
def Obligations.RandomIsAnySampleMasked : Prop :=
  ∀ (s : State) (x : Reg) (nn : Byte),
    (∃ r t, exec (.rnd x nn) s = .next t ∧ WritesReg x (r &&& nn) s t ∧ t.getV x &&& ~~~nn = 0 ∧
      t.pc = s.pc + 2 ∧ Frame [.V, .pc, .random] s t) ∧
    (∀ r rest, s.samples = r :: rest → ∃ t, exec (.rnd x nn) s = .next t ∧ t.getV x = r &&& nn ∧
      t.samples = rest ∧ t.drawn = s.drawn) ∧
    (s.samples = [] → ∃ t, exec (.rnd x nn) s = .next t ∧ t.getV x = Config.freeSample s.drawn &&& nn ∧
      t.samples = [] ∧ t.drawn = s.drawn + 1) ∧
    (∀ v, v &&& nn = v → ∃ samples t, exec (.rnd x nn) { s with samples := samples } = .next t ∧ t.getV x = v)

/-! ### Control transfer -/

/-- 40 R84 to R87: the four conditional skips set `pc` to `pc + 4` when their condition holds, else to `pc + 2`, and
change nothing else. -/
def Obligations.ConditionalSkipsSetPcOnly : Prop :=
  ∀ (s : State) (x y : Reg) (nn : Byte),
    (∃ t, exec (.seI x nn) s = .next t ∧ t.pc = (if s.getV x = nn then s.pc + 4 else s.pc + 2) ∧ Frame [.pc] s t) ∧
    (∃ t, exec (.sneI x nn) s = .next t ∧ t.pc = (if s.getV x ≠ nn then s.pc + 4 else s.pc + 2) ∧ Frame [.pc] s t) ∧
    (∃ t, exec (.seR x y) s = .next t ∧ t.pc = (if s.getV x = s.getV y then s.pc + 4 else s.pc + 2) ∧
      Frame [.pc] s t) ∧
    (∃ t, exec (.sneR x y) s = .next t ∧ t.pc = (if s.getV x ≠ s.getV y then s.pc + 4 else s.pc + 2) ∧
      Frame [.pc] s t)

/-- 40 R82: JP sets `pc` to `NNN` and changes nothing else. -/
def Obligations.JumpSetsPcOnly : Prop :=
  ∀ (s : State) (nnn : Imm12),
    ∃ t, exec (.jp nnn) s = .next t ∧ t.pc.toNat = nnn.toNat ∧ Frame [.pc] s t

/-- 40 R88: JP V0 sets `pc` to `V[0] + NNN`, reduced modulo 4096 when the machine's `BNNN_WRAP` is true and not when it is
false, and changes nothing else. The reduction is the spec's decision D2 (log 11). -/
def Obligations.JumpRelativeToV0SetsPcOnly : Prop :=
  ∀ (s : State) (nnn : Imm12),
    ∃ t, exec (.jpV0 nnn) s = .next t ∧
      t.pc.toNat = (if s.params.bnnnWrap then ((s.getV 0).toNat + nnn.toNat) % 4096 else (s.getV 0).toNat + nnn.toNat) ∧
      Frame [.pc] s t

/-- 40 R83: CALL pushes its own address and jumps; on a stack that holds the machine's `STACK_DEPTH` entries it raises
StackOverflow and pushes nothing. That the error entry (60 R177) is the whole effect is the spec's decision D7 (log 18);
that it is a next state is log 5. -/
def Obligations.CallPushesItsOwnAddress : Prop :=
  ∀ (s : State) (nnn : Imm12),
    (s.stack.length < s.params.stackDepth → ∃ t, exec (.call nnn) s = .next t ∧ t.stack = s.pc :: s.stack ∧
      t.pc.toNat = nnn.toNat ∧ Frame [.stack, .pc] s t) ∧
    (s.params.stackDepth ≤ s.stack.length → ∃ t, exec (.call nnn) s = .next t ∧ EntersError .stackOverflow s t)

/-- 40 R81: RET pops the address of the CALL and adds 2; on an empty stack it raises StackUnderflow. That the error entry
(60 R177) is the whole effect is the spec's decision D7 (log 18); that it is a next state is log 5. -/
def Obligations.ReturnPopsAndAdvances : Prop :=
  ∀ s : State,
    (∀ a rest, s.stack = a :: rest → ∃ t, exec .ret s = .next t ∧ t.stack = rest ∧ t.pc = a + 2 ∧
      Frame [.stack, .pc] s t) ∧
    (s.stack = [] → ∃ t, exec .ret s = .next t ∧ EntersError .stackUnderflow s t)

/-- 40 R83, the source's property: a call from P followed by a return leaves `pc` at P + 2, the stack as it was, and
everything else too. -/
def Obligations.CallThenReturnComesBack : Prop :=
  ∀ (s : State) (nnn : Imm12), s.stack.length < s.params.stackDepth →
    ∃ t u, exec (.call nnn) s = .next t ∧ exec .ret t = .next u ∧ u.pc = s.pc + 2 ∧ Frame [.pc] s u

/-! ### Index register and memory instructions -/

/-- 42 R122: ADD I, Vx adds modulo 4096 and writes no flag. -/
def Obligations.AddToIndexWrapsAt4096 : Prop :=
  ∀ (s : State) (x : Reg),
    ∃ t, exec (.addIdx x) s = .next t ∧ t.I.toNat = (s.I.toNat + (s.getV x).toNat) % 4096 ∧ t.pc = s.pc + 2 ∧
      Frame [.I, .pc] s t

/-- 42 R121, R123: LD I sets `I` to `NNN` (general knowledge G3, decision D8; log 16), LD F to `0x050 + Vx × 5` with the
whole byte (decision D11; log 20). -/
def Obligations.LoadIndexAndGlyphAddress : Prop :=
  ∀ (s : State) (x : Reg) (nnn : Imm12),
    (∃ t, exec (.ldIdx nnn) s = .next t ∧ t.I.toNat = nnn.toNat ∧ t.pc = s.pc + 2 ∧ Frame [.I, .pc] s t) ∧
    (∃ t, exec (.ldF x) s = .next t ∧ t.I.toNat = 0x050 + (s.getV x).toNat * 5 ∧ t.pc = s.pc + 2 ∧
      Frame [.I, .pc] s t)

/-- 42 R124: LD B stores the three decimal digits of `V[X]` at `I`, or raises OutOfBounds and stores nothing. That a store
that fails stores nothing, and that the error entry (60 R177) is the whole effect, is the spec's decision D7 (20 R42;
log 18); that the entry is a next state is log 5. -/
def Obligations.StoreBcdWritesThreeDigits : Prop :=
  ∀ (s : State) (x : Reg), s.memWf = true →
    (s.I.toNat + 3 ≤ 4096 → ∃ t, exec (.ldB x) s = .next t ∧
      StoresBytes s.I.toNat [BitVec.ofNat 8 ((s.getV x).toNat / 100), BitVec.ofNat 8 ((s.getV x).toNat / 10 % 10),
        BitVec.ofNat 8 ((s.getV x).toNat % 10)] s t ∧
      100 * (t.byte s.I.toNat).toNat + 10 * (t.byte (s.I.toNat + 1)).toNat +
        (t.byte (s.I.toNat + 2)).toNat = (s.getV x).toNat ∧
      t.pc = s.pc + 2 ∧ Frame [.mem, .pc] s t) ∧
    (s.I.toNat + 3 > 4096 → ∃ t, exec (.ldB x) s = .next t ∧ EntersError .outOfBounds s t)

/-- 42 R125: LD [I], Vx stores V0 to VX at `I`, `I + 1`, ..., or raises OutOfBounds and stores nothing. That `I` is unchanged
is the spec's decision D10 (log 20), that the error entry (60 R177) is the whole effect its decision D7 (log 18); that the
entry is a next state is log 5. -/
def Obligations.StoreRegistersWritesV0ToVx : Prop :=
  ∀ (s : State) (x : Reg), s.memWf = true →
    (s.I.toNat + x.val + 1 ≤ 4096 → ∃ t, exec (.stRegs x) s = .next t ∧
      (∀ r, r ≤ x → t.byte (s.I.toNat + r.val) = s.getV r) ∧
      (∀ b, b < s.I.toNat ∨ s.I.toNat + x.val + 1 ≤ b → t.byte b = s.byte b) ∧
      t.pc = s.pc + 2 ∧ Frame [.mem, .pc] s t) ∧
    (s.I.toNat + x.val + 1 > 4096 → ∃ t, exec (.stRegs x) s = .next t ∧ EntersError .outOfBounds s t)

/-- 42 R126: LD Vx, [I] loads V0 to VX from `I`, `I + 1`, ..., or raises OutOfBounds and loads nothing. That `I` is unchanged
is the spec's decision D10 (log 20), that the error entry (60 R177) is the whole effect its decision D7 (log 18); that the
entry is a next state is log 5. -/
def Obligations.LoadRegistersReadsV0ToVx : Prop :=
  ∀ (s : State) (x : Reg),
    (s.I.toNat + x.val + 1 ≤ 4096 → ∃ t, exec (.ldRegs x) s = .next t ∧
      (∀ r, r ≤ x → t.getV r = s.byte (s.I.toNat + r.val)) ∧ (∀ r, x < r → t.getV r = s.getV r) ∧
      t.pc = s.pc + 2 ∧ Frame [.V, .pc] s t) ∧
    (s.I.toNat + x.val + 1 > 4096 → ∃ t, exec (.ldRegs x) s = .next t ∧ EntersError .outOfBounds s t)

/-- 42 R125, R126 together (D10; log 20): after a dump in range, a load from the same `I` of any machine with that memory
gives registers V0 to VX back. -/
def Obligations.DumpThenLoadRestoresRegisters : Prop :=
  ∀ (s u : State) (x : Reg), s.memWf = true → s.I.toNat + x.val + 1 ≤ 4096 →
    ∃ t, exec (.stRegs x) s = .next t ∧
      ∃ w, exec (.ldRegs x) { u with mem := t.mem, params := t.params, I := s.I } = .next w ∧
        ∀ r, r ≤ x → w.getV r = s.getV r

/-- 20 R53, 70 R211: what FX55 and FX33 store is what the next fetch reads, high half first, at every address whose two
bytes both lie in the stored range. -/
def Obligations.StoredBytesAreFetchedAsStored : Prop :=
  ∀ (s : State) (x : Reg), s.memWf = true →
    (s.I.toNat + x.val + 1 ≤ 4096 → ∃ t, exec (.stRegs x) s = .next t ∧
      ∀ (a : Word) (r q : Reg), a.toNat = s.I.toNat + r.val → q.val = r.val + 1 → q ≤ x →
        fetch (t.setPc a) = .ok (wordOfBytes (s.getV r) (s.getV q))) ∧
    (s.I.toNat + 3 ≤ 4096 → ∃ t, exec (.ldB x) s = .next t ∧
      (∀ a : Word, a.toNat = s.I.toNat → fetch (t.setPc a) = .ok (wordOfBytes
        (BitVec.ofNat 8 ((s.getV x).toNat / 100)) (BitVec.ofNat 8 ((s.getV x).toNat / 10 % 10)))) ∧
      ∀ a : Word, a.toNat = s.I.toNat + 1 → fetch (t.setPc a) = .ok (wordOfBytes
        (BitVec.ofNat 8 ((s.getV x).toNat / 10 % 10)) (BitVec.ofNat 8 ((s.getV x).toNat % 10))))

/-! ### Display -/

/-- 43 R141: CLS zeroes every cell; VF is not changed. -/
def Obligations.ClearZeroesEveryCell : Prop :=
  ∀ s : State,
    ∃ t, exec .cls s = .next t ∧ (∀ y x, y < 32 → x < 64 → cell t.fb y x = false) ∧ t.pc = s.pc + 2 ∧
      Frame [.fb, .pc] s t

/-- 43 R142: DRW XORs the sprite, clipped at the right and bottom edges, into the framebuffer, and VF is 1 exactly when a
set bit of it falls on a set cell; out of range it raises OutOfBounds. The bit order is the spec's decision D15 (log 21),
the meaning of `N` = 0 its decision D27 (log 20), that the error entry (60 R177) is the whole effect its decision D7
(log 18); that the entry is a next state is log 5. -/
def Obligations.DrawXorsClippedSprite : Prop :=
  ∀ (s : State) (x y : Reg) (n : Nibble),
    (s.I.toNat + n.toNat ≤ 4096 → ∃ (t : State) (rows : List Byte), exec (.drw x y n) s = .next t ∧
      rows.length = n.toNat ∧ (∀ i, (h : i < rows.length) → rows[i] = s.byte (s.I.toNat + i)) ∧
      (∀ cy cx, cy < 32 → cx < 64 → cell t.fb cy cx =
        (cell s.fb cy cx ^^ spriteBit rows ((s.getV y).toNat % 32) ((s.getV x).toNat % 64) cy cx)) ∧
      (t.getV VF = 1 ↔ ∃ cy cx, cy < 32 ∧ cx < 64 ∧ cell s.fb cy cx = true ∧
        spriteBit rows ((s.getV y).toNat % 32) ((s.getV x).toNat % 64) cy cx = true) ∧
      (t.getV VF = 0 ∨ t.getV VF = 1) ∧ (∀ r, r ≠ VF → t.getV r = s.getV r) ∧
      t.pc = s.pc + 2 ∧ Frame [.V, .fb, .pc] s t) ∧
    (s.I.toNat + n.toNat > 4096 → ∃ t, exec (.drw x y n) s = .next t ∧ EntersError .outOfBounds s t)

/-- 43 R142: drawing the same sprite twice at the same origin restores the framebuffer (the source's property), and the
second draw collides exactly when a visible set bit lay over an unset cell before the first (the spec's reading of the
source's property, 90 C5; the bit order is its decision D15, general knowledge G6, log 21). With `X` or `Y` = 15 the first
draw moves the origin of the second (R142, first corner case). -/
def Obligations.DrawTwiceRestoresFramebuffer : Prop :=
  ∀ (s : State) (x y : Reg) (n : Nibble), x ≠ VF → y ≠ VF → s.I.toNat + n.toNat ≤ 4096 →
    ∃ t u, exec (.drw x y n) s = .next t ∧ exec (.drw x y n) t = .next u ∧ u.fb = s.fb ∧
      (u.getV VF = 1 ↔ ∃ cy cx, cy < 32 ∧ cx < 64 ∧ cell s.fb cy cx = false ∧
        spriteBit (s.mem.readBytes s.params.font s.I.toNat n.toNat) ((s.getV y).toNat % 32)
          ((s.getV x).toNat % 64) cy cx = true)

/-! ### Keypad and timers -/

/-- 44 R150, R151: SKP and SKNP skip by the level of the key that the whole byte `V[X]` names, and raise InvalidKey above
0x0F. That the error entry (60 R177) is the whole effect is the spec's decision D7 (log 18); that it is a next state is
log 5. -/
def Obligations.SkipsOnKeyLevelOrInvalidKey : Prop :=
  ∀ (s : State) (x : Reg),
    (∀ k : Key, (s.getV x).toNat = k.val →
      (∃ t, exec (.skp x) s = .next t ∧ t.pc = (if s.key k = true then s.pc + 4 else s.pc + 2) ∧ Frame [.pc] s t) ∧
      (∃ t, exec (.sknp x) s = .next t ∧ t.pc = (if s.key k = false then s.pc + 4 else s.pc + 2) ∧ Frame [.pc] s t)) ∧
    (0x0F < (s.getV x).toNat →
      (∃ t, exec (.skp x) s = .next t ∧ EntersError .invalidKey s t) ∧
      (∃ t, exec (.sknp x) s = .next t ∧ EntersError .invalidKey s t))

/-- 44 R152: LD Vx, K latches `X`, enters WAITING_FOR_KEY and changes nothing else, whatever the key levels; `pc` stays.
That a held key does not end the wait is the spec's decision D16 (log 23). -/
def Obligations.WaitForKeyEntryLatchesX : Prop :=
  ∀ (s : State) (x : Reg),
    ∃ t, exec (.ldVxK x) s = .next t ∧ t.kx = x ∧ t.mode = .waitingForKey ∧ t.pc = s.pc ∧ Frame [.kx, .mode] s t

/-- 44 R154 to R156: the timer instructions copy between `V[X]` and a timer and advance `pc` by 2. -/
def Obligations.TimerInstructionsCopyOneByte : Prop :=
  ∀ (s : State) (x : Reg),
    (∃ t, exec (.ldVxDt x) s = .next t ∧ WritesReg x s.DT s t ∧ t.pc = s.pc + 2 ∧ Frame [.V, .pc] s t) ∧
    (∃ t, exec (.ldDtVx x) s = .next t ∧ t.DT = s.getV x ∧ t.pc = s.pc + 2 ∧ Frame [.DT, .pc] s t) ∧
    (∃ t, exec (.ldStVx x) s = .next t ∧ t.ST = s.getV x ∧ t.pc = s.pc + 2 ∧ Frame [.ST, .pc] s t)

/-! ### What every instruction does and does not do -/

/-- Every instruction answers a next state in every state: no instruction of the opcode map stops the model. An error is a
next state too (60 R177; the mapping is log 5). -/
def Obligations.EveryInstructionAnswersANextState : Prop :=
  ∀ (i : Instr) (s : State), ∃ t, exec i s = .next t

/-- 60 R170, R176 to R178: an instruction either raises the one error kind of its own check, with the error entry as its
whole effect, or leaves the error record alone and does not halt the machine. That a failing instruction has no partial
effect is the spec's decision D7 (log 18); that the error entry is a next state is log 5. -/
def Obligations.ErrorsArePreciseAndOfTheirOwnKind : Prop :=
  ∀ (i : Instr) (s t : State), exec i s = .next t →
    (∃ k, i.ownError = some k ∧ EntersError k s t) ∨ (t.err = s.err ∧ (t.mode = s.mode ∨ t.mode = .waitingForKey))

/-- 10 R11, R12, R14, R15, R17, R18, R22, R24: which instruction may write which part of the state. -/
def Obligations.EachPartHasItsOwnWriters : Prop :=
  ∀ (i : Instr) (s t : State), exec i s = .next t →
    (∀ r, i.namesDestination r = false → (r = VF → i.writesFlag = false) → t.getV r = s.getV r) ∧
    (i.writesIndex = false → t.I = s.I) ∧ (i.writesStack = false → t.stack = s.stack) ∧
    (i.storesToMemory = false → ∀ a, t.byte a = s.byte a) ∧
    (i.writesFramebuffer = false → t.fb = s.fb) ∧
    ((∀ x, i ≠ .ldDtVx x) → t.DT = s.DT) ∧ ((∀ x, i ≠ .ldStVx x) → t.ST = s.ST) ∧
    ((∀ x, i ≠ .ldVxK x) → t.kx = s.kx) ∧
    ((∀ x nn, i ≠ .rnd x nn) → t.samples = s.samples ∧ t.drawn = s.drawn) ∧
    t.keys = s.keys ∧ t.schedule = s.schedule ∧ t.params = s.params

/-- 20 R46: but for DXYN, FX33, FX55 and FX65, what an instruction does with everything else does not depend on memory, and
it leaves memory as it was. -/
def Obligations.OtherInstructionsAreBlindToMemory : Prop :=
  ∀ (i : Instr) (s t : State) (m : Memory), i.touchesMemory = false → exec i s = .next t →
    exec i (s.setMem m) = .next (t.setMem m)

/-- 10 R18: no instruction reads `ST`: changing `ST` changes nothing else in the outcome of any instruction. -/
def Obligations.SoundTimerInfluencesNothing : Prop :=
  ∀ (i : Instr) (s t : State) (v : Byte), exec i s = .next t →
    exec i (s.setST v) = .next (if ∃ x, i = .ldStVx x then t else t.setST v)

/-- 60 R186: an instruction that uses no timer and a tick give the same state in either order (the spec's derivation). -/
def Obligations.InstructionsCommuteWithTicks : Prop :=
  ∀ (i : Instr) (s t : State), i.usesTimer = false → exec i s = .next t → exec i (tick s) = .next (tick t)

/-! ### The step and the agents -/

/-- 70 R205: in RUNNING, when the two bytes at `pc` decode to a well-formed instruction, a step is that instruction's
execution: at once when nothing is scheduled, and from the state without the entry when the CPU's step is the scheduled
transition (the schedule is the model's, log 1). -/
def Obligations.StepRunsTheDecodedInstruction : Prop :=
  ∀ (s : State) (i : Instr), s.mode = .running → s.pc.toNat ≤ 0xFFE →
    decodeBytes [s.byte s.pc.toNat, s.byte (s.pc.toNat + 1)] = .ok (i, []) → i.wellFormed = true →
    (s.schedule = [] → step s = exec i s) ∧
    (∀ rest, s.schedule = .step :: rest → step s = exec i { s with schedule := rest })

/-- 60 R176, R177: of the checks of a step, the fetch comes first (OutOfBounds) and the decoder second (UnknownOpcode), and
each has the error entry as its whole effect: at once when nothing is scheduled, and from the state without the entry when
the CPU's step is the scheduled transition (the schedule is the model's, log 1). The order is the spec's decision D13 and
the absence of partial effects its decision D7 (log 18); that the error entry is a next state is log 5. -/
def Obligations.FetchAndDecodeErrorsComeFirst : Prop :=
  ∀ s : State, s.mode = .running →
    (0xFFF ≤ s.pc.toNat →
      (s.schedule = [] → ∃ t, step s = .next t ∧ EntersError .outOfBounds s t) ∧
      (∀ rest, s.schedule = .step :: rest →
        ∃ t, step s = .next t ∧ EntersError .outOfBounds { s with schedule := rest } t)) ∧
    (∀ w, s.pc.toNat ≤ 0xFFE → w = wordOfBytes (s.byte s.pc.toNat) (s.byte (s.pc.toNat + 1)) →
      decode w = .error (.unknownPattern w) →
      (s.schedule = [] → ∃ t, step s = .next t ∧ EntersError .unknownOpcode s t) ∧
      (∀ rest, s.schedule = .step :: rest →
        ∃ t, step s = .next t ∧ EntersError .unknownOpcode { s with schedule := rest } t))

/-- 10 R19, R20, 60 R177: a HALTED machine with nothing scheduled takes no step and reports its error record. That the
report is the model's `Fault.halted` is log 3. -/
def Obligations.HaltedMachineReportsItsError : Prop :=
  ∀ s : State, s.mode = .halted → s.schedule = [] → step s = .fault (.halted s.err)

/-- 60 R179: HALTED is left only by reset, and until then the error record stays, and with it everything but the timers,
the key levels and the schedule. The spec's decision D12 (log 5); that a scheduled step or key event that is not enabled
does not happen is log 4. -/
def Obligations.HaltedIsLeftOnlyByReset : Prop :=
  ∀ s t : State, s.mode = .halted → step s = .next t →
    s.Resets ∨ (t.mode = .halted ∧ t.err = s.err ∧ Frame [.DT, .ST, .keys, .schedule] s t)

/-- 60 R196: WAITING_FOR_KEY is left only by a key-down or by reset; until then everything but the timers, the key levels
and the schedule stays. That only a key-down of a key that is up ends the wait is the spec's decision D16 (60 R189;
log 23); that a key-down of a key already down does not happen is log 4, and that with nothing scheduled the state stays
is log 2. -/
def Obligations.WaitIsLeftOnlyByKeyDownOrReset : Prop :=
  ∀ s t : State, s.mode = .waitingForKey → step s = .next t →
    (∃ k rest, s.schedule = .keyDown k :: rest ∧ s.key k = false ∧ t.mode = .running) ∨ s.Resets ∨
      (t.mode = .waitingForKey ∧ Frame [.DT, .ST, .keys, .schedule] s t)

/-- 60 R185: a scheduled tick decrements each timer that is nonzero and changes nothing else, in every mode (HALTED
included: the spec's decision D17, log 24). -/
def Obligations.TickDecrementsNonzeroTimers : Prop :=
  ∀ (s : State) (rest : List Transition), s.schedule = .tick :: rest →
    ∃ t, step s = .next t ∧ t.DT.toNat = s.DT.toNat - 1 ∧ t.ST.toNat = s.ST.toNat - 1 ∧ t.schedule = rest ∧
      Frame [.DT, .ST, .schedule] s t

/-- 60 R187 (the spec's derivation): after FX15 writes `v` to `DT` and `n` ticks follow, `DT` is `max(v − n, 0)`; the same
for FX18 and `ST`. -/
def Obligations.TimersCountDownToZero : Prop :=
  ∀ (s : State) (x : Reg) (n : Nat),
    (∃ t, exec (.ldDtVx x) s = .next t ∧ (ticks n t).DT.toNat = (s.getV x).toNat - n) ∧
    (∃ t, exec (.ldStVx x) s = .next t ∧ (ticks n t).ST.toNat = (s.getV x).toNat - n)

/-- 10 R18, 60 R187: a timer never goes up in a step of the machine, but when the instruction that writes it executes. -/
def Obligations.TimersNeverRiseBetweenWrites : Prop :=
  ∀ s t : State, step s = .next t →
    (t.DT.toNat ≤ s.DT.toNat ∨ ∃ x, s.Executes (.ldDtVx x)) ∧ (t.ST.toNat ≤ s.ST.toNat ∨ ∃ x, s.Executes (.ldStVx x))

/-- 20 R54: in a step of the whole machine, a byte of memory changes only when FX33 or FX55 executes, or by reset. -/
def Obligations.MemoryChangesOnlyByStoresOrReset : Prop :=
  ∀ (s t : State) (a : Nat), step s = .next t → t.byte a ≠ s.byte a →
    s.Resets ∨ ∃ i : Instr, s.Executes i ∧ i.storesToMemory = true

/-- 44 R153, 60 R189: a scheduled `KeyDown(k)` for a key that is up raises its level; a waiting core also resumes, and any
other core is not changed. The keypad contract is the spec's decision D16 (log 23). -/
def Obligations.KeyDownRaisesLevelAndResumes : Prop :=
  ∀ (s : State) (k : Key) (rest : List Transition), s.schedule = .keyDown k :: rest → s.key k = false →
    ∃ t, step s = .next t ∧ t.schedule = rest ∧ t.key k = true ∧ (∀ j, j ≠ k → t.key j = s.key j) ∧
      (s.mode = .waitingForKey → WritesReg s.kx (BitVec.ofNat 8 k.val) s t ∧ t.pc = s.pc + 2 ∧ t.mode = .running ∧
        Frame [.V, .pc, .mode, .keys, .schedule] s t) ∧
      (s.mode ≠ .waitingForKey → Frame [.keys, .schedule] s t)

/-- 60 R189: a scheduled `KeyUp(k)` lowers the level and does nothing else. Decision D16 (log 23); that an event which is
not enabled does not happen is log 4. -/
def Obligations.KeyUpLowersLevelOnly : Prop :=
  ∀ (s : State) (k : Key) (rest : List Transition), s.schedule = .keyUp k :: rest →
    ∃ t, step s = .next t ∧ t.schedule = rest ∧ t.key k = false ∧ (∀ j, j ≠ k → t.key j = s.key j) ∧
      Frame [.keys, .schedule] s t

/-- 70 R200, R202: `Reset(image)` with an image that fits gives every piece of state its reset value (10 R27, the spec's
decisions D3, D4; log 7, log 8), with the machine's `FONT` at 0x050, the image at 0x200 and 0x00 everywhere else; the host's
own inputs stay (log 12) and so do the machine's arguments (log 29). An image that does not fit starts no core (D28;
log 15). -/
def Obligations.ResetTransitionBootsTheImage : Prop :=
  ∀ (s : State) (image : List Byte) (rest : List Transition), s.schedule = .reset image :: rest →
    (image.length ≤ 3584 → ∃ t, step s = .next t ∧
      (∀ i, (h : i < image.length) → t.byte (0x200 + i) = image[i]) ∧
      (∀ i, (h : i < 80) → t.byte (0x050 + i) = s.params.font[i]) ∧
      (∀ b, b < 0x050 ∨ (0x0A0 ≤ b ∧ b < 0x200) ∨ 0x200 + image.length ≤ b → t.byte b = 0) ∧
      t.keys = s.keys ∧ t.schedule = rest ∧ t.samples = s.samples ∧ t.drawn = s.drawn ∧
      Frame [.mem, .keys, .schedule, .random] (State.resetFor s.params) t) ∧
    (3584 < image.length → step s = .fault .imageTooLong)

/-- 00 R5, 10 R27, 20 R48, R55, 70 R201: the state right after reset with an empty image, for a machine with any arguments,
whose font it holds at 0x050; and State.reset is that of the machine with the default arguments. The values are the spec's
decisions D3, D4 and its default arguments (D2, D5, D22, G5; log 7 to log 11), not the source's. -/
def Obligations.ResetStateHoldsTheTableOfResetValues : Prop :=
  (∀ p : Params, (∀ r, (State.resetFor p).getV r = 0) ∧ (State.resetFor p).I = 0 ∧ (State.resetFor p).pc = 0x0200 ∧
    (State.resetFor p).stack = [] ∧ (State.resetFor p).DT = 0 ∧ (State.resetFor p).ST = 0 ∧
    (∀ y x, cell (State.resetFor p).fb y x = false) ∧ (State.resetFor p).mode = .running ∧
    (State.resetFor p).err = none ∧ (State.resetFor p).kx = 0 ∧ (State.resetFor p).params = p ∧
    (∀ i, (h : i < 80) → (State.resetFor p).byte (0x050 + i) = p.font[i]) ∧
    ∀ a, a < 0x050 ∨ 0x0A0 ≤ a → (State.resetFor p).byte a = 0) ∧
  State.reset = State.resetFor defaultParams ∧ defaultParams.stackDepth = 16 ∧ defaultParams.bnnnWrap = true ∧
  defaultParams.font = font

/-- 70 R207 (the spec's convention, D25): an idling program stays as it is, step after step, and stays idling under ticks.
-/
def Obligations.IdlingProgramStaysAsItIs : Prop :=
  ∀ s : State, s.Idles → (s.schedule = [] → step s = .next s) ∧ (tick s).Idles

/-! ### The invariant -/

/-- 10 R29 and what makes it inductive hold at reset, of the machine with the default arguments and of every other. The
values are the spec's decisions D3 and D4 (log 7, log 8). -/
def Obligations.InvariantAtReset : Prop := Inv State.reset ∧ ∀ p : Params, Inv (State.resetFor p)

/-- 10 R29 (the spec's derivation): from every state that meets it, every step of the machine, whatever is scheduled,
keeps the invariant: `I` at most 0xFFF, `pc` at most 0x1002 (0x10FE without `BNNN_WRAP`) and at most 0xFFE while waiting,
the stack within its depth and its entries at most 0xFFE, an error record exactly when HALTED, its `pc` the machine's, and
memory in its canonical form (the model's, log 8). -/
def Obligations.EveryStepKeepsTheInvariant : Prop :=
  ∀ s t : State, Inv s → step s = .next t → Inv t

/-- 00 R5: the arguments of a machine are fixed for it: no step, a reset included, changes them. That the state carries
them is the model's (log 29). -/
def Obligations.ArgumentsNeverChange : Prop := ∀ s t : State, step s = .next t → t.params = s.params
end

