-- ==== Sys2Proof/Laws/Decode.lean ====
section
/-! SUPPORT. The fields of a word as numbers, the fields of an encoded word, and a word put together from two bytes. -/

namespace Sys2Proof

@[simp] theorem regOf_val (f : Nibble) : (regOf f).val = f.toNat := rfl

/-! ### The fields of a word as numbers (R8) -/

theorem fieldT_toNat (w : Word) : (fieldT w).toNat = w.toNat / 0x1000 := by
  have := w.isLt
  simp only [fieldT, BitVec.extractLsb'_toNat, Nat.shiftRight_eq_div_pow]
  omega

theorem fieldX_toNat (w : Word) : (fieldX w).toNat = w.toNat / 0x100 % 16 := by
  simp only [fieldX, BitVec.extractLsb'_toNat, Nat.shiftRight_eq_div_pow]

theorem fieldY_toNat (w : Word) : (fieldY w).toNat = w.toNat / 0x10 % 16 := by
  simp only [fieldY, BitVec.extractLsb'_toNat, Nat.shiftRight_eq_div_pow]

theorem fieldN_toNat (w : Word) : (fieldN w).toNat = w.toNat % 16 := by
  simp only [fieldN, BitVec.extractLsb'_toNat, Nat.shiftRight_eq_div_pow]
  omega

theorem fieldNN_toNat (w : Word) : (fieldNN w).toNat = w.toNat % 0x100 := by
  simp only [fieldNN, BitVec.extractLsb'_toNat, Nat.shiftRight_eq_div_pow]
  omega

theorem fieldNNN_toNat (w : Word) : (fieldNNN w).toNat = w.toNat % 0x1000 := by
  simp only [fieldNNN, BitVec.extractLsb'_toNat, Nat.shiftRight_eq_div_pow]
  omega

/-! ### Format `T ++ NNN` -/

theorem encodeNNN_toNat (t : Nibble) (nnn : Imm12) : (encodeNNN t nnn).toNat = t.toNat * 0x1000 + nnn.toNat := by
  have := t.isLt
  have := nnn.isLt
  simp only [encodeNNN, BitVec.toNat_ofNat]
  omega

@[simp] theorem fieldT_encodeNNN (t : Nibble) (nnn : Imm12) : fieldT (encodeNNN t nnn) = t := by
  have := nnn.isLt
  apply BitVec.eq_of_toNat_eq
  rw [fieldT_toNat, encodeNNN_toNat]
  omega

@[simp] theorem fieldNNN_encodeNNN (t : Nibble) (nnn : Imm12) : fieldNNN (encodeNNN t nnn) = nnn := by
  have := nnn.isLt
  apply BitVec.eq_of_toNat_eq
  rw [fieldNNN_toNat, encodeNNN_toNat]
  omega

/-! ### Format `T ++ X ++ NN` -/

theorem encodeXNN_toNat (t : Nibble) (x : Reg) (nn : Byte) :
    (encodeXNN t x nn).toNat = t.toNat * 0x1000 + x.val * 0x100 + nn.toNat := by
  have := t.isLt
  have := x.isLt
  have := nn.isLt
  simp only [encodeXNN, BitVec.toNat_ofNat]
  omega

@[simp] theorem fieldT_encodeXNN (t : Nibble) (x : Reg) (nn : Byte) : fieldT (encodeXNN t x nn) = t := by
  have := x.isLt
  have := nn.isLt
  apply BitVec.eq_of_toNat_eq
  rw [fieldT_toNat, encodeXNN_toNat]
  omega

@[simp] theorem regOf_fieldX_encodeXNN (t : Nibble) (x : Reg) (nn : Byte) :
    regOf (fieldX (encodeXNN t x nn)) = x := by
  have := x.isLt
  have := nn.isLt
  apply Fin.ext
  rw [regOf_val, fieldX_toNat, encodeXNN_toNat]
  omega

@[simp] theorem fieldNN_encodeXNN (t : Nibble) (x : Reg) (nn : Byte) : fieldNN (encodeXNN t x nn) = nn := by
  have := nn.isLt
  apply BitVec.eq_of_toNat_eq
  rw [fieldNN_toNat, encodeXNN_toNat]
  omega

/-! ### Format `T ++ X ++ Y ++ N` -/

theorem encodeXYN_toNat (t : Nibble) (x y : Reg) (n : Nibble) :
    (encodeXYN t x y n).toNat = t.toNat * 0x1000 + x.val * 0x100 + y.val * 0x10 + n.toNat := by
  have := t.isLt
  have := x.isLt
  have := y.isLt
  have := n.isLt
  simp only [encodeXYN, BitVec.toNat_ofNat]
  omega

@[simp] theorem fieldT_encodeXYN (t : Nibble) (x y : Reg) (n : Nibble) : fieldT (encodeXYN t x y n) = t := by
  have := x.isLt
  have := y.isLt
  have := n.isLt
  apply BitVec.eq_of_toNat_eq
  rw [fieldT_toNat, encodeXYN_toNat]
  omega

@[simp] theorem regOf_fieldX_encodeXYN (t : Nibble) (x y : Reg) (n : Nibble) :
    regOf (fieldX (encodeXYN t x y n)) = x := by
  have := x.isLt
  have := y.isLt
  have := n.isLt
  apply Fin.ext
  rw [regOf_val, fieldX_toNat, encodeXYN_toNat]
  omega

@[simp] theorem regOf_fieldY_encodeXYN (t : Nibble) (x y : Reg) (n : Nibble) :
    regOf (fieldY (encodeXYN t x y n)) = y := by
  have := y.isLt
  have := n.isLt
  apply Fin.ext
  rw [regOf_val, fieldY_toNat, encodeXYN_toNat]
  omega

@[simp] theorem fieldN_encodeXYN (t : Nibble) (x y : Reg) (n : Nibble) : fieldN (encodeXYN t x y n) = n := by
  have := n.isLt
  apply BitVec.eq_of_toNat_eq
  rw [fieldN_toNat, encodeXYN_toNat]
  omega

/-! ### The masks of the opcode map (R64) -/

/-- The mask 0xF000 keeps `T`. -/
theorem mask_T (w : Word) : w &&& 0xF000#16 = (fieldT w).setWidth 16 <<< 12 := by
  unfold fieldT
  ext i hi
  interval_cases i <;> simp [BitVec.getLsbD_eq_getElem]

/-- The mask 0xF00F keeps `T` and `N`. -/
theorem mask_TN (w : Word) : w &&& 0xF00F#16 = (fieldT w).setWidth 16 <<< 12 ||| (fieldN w).setWidth 16 := by
  unfold fieldT fieldN
  ext i hi
  interval_cases i <;> simp [BitVec.getLsbD_eq_getElem]

/-- The mask 0xF0FF keeps `T` and `NN`. -/
theorem mask_TNN (w : Word) : w &&& 0xF0FF#16 = (fieldT w).setWidth 16 <<< 12 ||| (fieldNN w).setWidth 16 := by
  unfold fieldT fieldNN
  ext i hi
  interval_cases i <;> simp [BitVec.getLsbD_eq_getElem]

/-! ### A word put together from its fields, or from its bytes -/

theorem encodeNNN_fields (w : Word) : encodeNNN (fieldT w) (fieldNNN w) = w := by
  have := w.isLt
  apply BitVec.eq_of_toNat_eq
  rw [encodeNNN_toNat, fieldT_toNat, fieldNNN_toNat]
  omega

theorem encodeXNN_fields (w : Word) : encodeXNN (fieldT w) (regOf (fieldX w)) (fieldNN w) = w := by
  have := w.isLt
  apply BitVec.eq_of_toNat_eq
  rw [encodeXNN_toNat, fieldT_toNat, regOf_val, fieldX_toNat, fieldNN_toNat]
  omega

theorem encodeXYN_fields (w : Word) :
    encodeXYN (fieldT w) (regOf (fieldX w)) (regOf (fieldY w)) (fieldN w) = w := by
  have := w.isLt
  apply BitVec.eq_of_toNat_eq
  rw [encodeXYN_toNat, fieldT_toNat, regOf_val, regOf_val, fieldX_toNat, fieldY_toNat, fieldN_toNat]
  omega

theorem wordOfBytes_toNat (hi lo : Byte) : (wordOfBytes hi lo).toNat = hi.toNat * 0x100 + lo.toNat := by
  have := hi.isLt
  have := lo.isLt
  simp only [wordOfBytes, BitVec.toNat_ofNat]
  omega

theorem wordOfBytes_of_word (w : Word) : wordOfBytes (w.extractLsb' 8 8) (w.extractLsb' 0 8) = w := by
  have := w.isLt
  apply BitVec.eq_of_toNat_eq
  simp only [wordOfBytes_toNat, BitVec.extractLsb'_toNat, Nat.shiftRight_eq_div_pow]
  omega

/-- The decoder on two bytes and more is the decoder on their word. -/
theorem decodeBytes_word (hi lo : Byte) (rest : List Byte) :
    decodeBytes (hi :: lo :: rest) = (decode (wordOfBytes hi lo)).map fun i => (i, rest) := rfl

/-- Fewer than two bytes are no instruction. -/
theorem decodeBytes_truncated (b : Byte) : decodeBytes [b] = .error .truncated := rfl

end Sys2Proof
end

