-- ==== Sys2Proof/Laws/Memory.lean ====
section
/-! SUPPORT. The laws of memory: what a read gives after a write, and that every memory operation keeps the canonical
form. -/

namespace Sys2Proof.Machine

variable {font : Font}

/-! ### Nothing listed (R48, R55) -/

theorem Memory.unlisted_font (i : Nat) (h : i < 80) : Memory.unlisted font (Config.fontBase + i) = font[i] := by
  simp [Memory.unlisted, Config.fontBase, h]

theorem Memory.unlisted_zero {a : Nat} (h : a < 0x050 ∨ 0x0A0 ≤ a) : Memory.unlisted font a = 0x00 := by
  unfold Memory.unlisted Config.fontBase
  split
  · rw [Vector.getElem?_eq_none (by omega)]; rfl
  · rfl

@[simp] theorem State.byte_resetFor (p : Params) (a : Nat) : (State.resetFor p).byte a = Memory.unlisted p.font a := rfl

/-! ### One byte -/

theorem Memory.wfFrom_mono {m : Memory} {lo lo' : Nat} (h : m.wfFrom font lo = true) (hl : lo' ≤ lo) :
    m.wfFrom font lo' = true := by
  cases m with
  | nil => rfl
  | cons c m =>
    obtain ⟨a, v⟩ := c
    simp only [Memory.wfFrom, Bool.and_eq_true, decide_eq_true_eq] at h ⊢
    exact ⟨⟨⟨by omega, h.1.1.2⟩, h.1.2⟩, h.2⟩

/-- Below the first address that may be listed, memory reads as nothing listed. -/
theorem Memory.read_below {m : Memory} {lo a : Nat} (h : m.wfFrom font lo = true) (ha : a < lo) :
    m.read font a = Memory.unlisted font a := by
  induction m generalizing lo with
  | nil => rfl
  | cons c m ih =>
    obtain ⟨b, w⟩ := c
    simp only [Memory.wfFrom, Bool.and_eq_true, decide_eq_true_eq] at h
    have hb : ¬ b = a := by omega
    simp only [Memory.read, hb, if_false]
    exact ih h.2 (by omega)

/-- A write leaves every other byte alone, in any memory. -/
theorem Memory.read_write_ne (m : Memory) {a b : Nat} (v : Byte) (h : b ≠ a) :
    (Memory.write font m a v).read font b = m.read font b := by
  induction m with
  | nil =>
    simp only [Memory.write]
    split
    · rfl
    · simp [Memory.read, Ne.symm h]
  | cons c m ih =>
    obtain ⟨d, w⟩ := c
    simp only [Memory.write]
    by_cases h1 : d < a
    · simp only [h1, if_true, Memory.read, ih]
    · simp only [h1, if_false]
      by_cases h2 : d = a
      · subst h2
        have hb : ¬ d = b := fun e => h e.symm
        simp only [if_true]
        split <;> simp [Memory.read, hb]
      · simp only [h2, if_false]
        split
        · rfl
        · simp [Memory.read, Ne.symm h]

/-- A read after a write to the same place gives the value written. -/
theorem Memory.read_write_same {m : Memory} {lo a : Nat} (v : Byte) (h : m.wfFrom font lo = true) :
    (Memory.write font m a v).read font a = v := by
  induction m generalizing lo with
  | nil =>
    simp only [Memory.write]
    split
    · next e => simp [Memory.read, e]
    · simp [Memory.read]
  | cons c m ih =>
    obtain ⟨d, w⟩ := c
    have hw := h
    simp only [Memory.wfFrom, Bool.and_eq_true, decide_eq_true_eq] at h
    simp only [Memory.write]
    by_cases h1 : d < a
    · have : ¬ d = a := by omega
      simp only [h1, if_true, Memory.read, this, if_false, ih h.2]
    · simp only [h1, if_false]
      by_cases h2 : d = a
      · subst h2
        simp only [if_true]
        split
        · next e => rw [e]; exact Memory.read_below h.2 (by omega)
        · simp [Memory.read]
      · simp only [h2, if_false]
        split
        · next e =>
          rw [e]
          simp only [Memory.read, h2, if_false]
          exact Memory.read_below h.2 (by omega)
        · simp [Memory.read]

/-- A write inside memory keeps the canonical form. -/
theorem Memory.wfFrom_write {m : Memory} {lo a : Nat} (v : Byte) (h : m.wfFrom font lo = true) (hl : lo ≤ a)
    (ha : a < Config.memSize) : (Memory.write font m a v).wfFrom font lo = true := by
  induction m generalizing lo with
  | nil =>
    simp only [Memory.write]
    split
    · rfl
    · next e => simp [Memory.wfFrom, hl, ha, e]
  | cons c m ih =>
    obtain ⟨d, w⟩ := c
    have hw := h
    simp only [Memory.wfFrom, Bool.and_eq_true, decide_eq_true_eq] at h
    simp only [Memory.write]
    by_cases h1 : d < a
    · simp only [h1, if_true, Memory.wfFrom, Bool.and_eq_true, decide_eq_true_eq]
      exact ⟨h.1, ih h.2 (by omega)⟩
    · simp only [h1, if_false]
      by_cases h2 : d = a
      · subst h2
        simp only [if_true]
        split
        · exact Memory.wfFrom_mono h.2 (by omega)
        · next e =>
          simp only [Memory.wfFrom, Bool.and_eq_true, decide_eq_true_eq]
          exact ⟨⟨⟨hl, ha⟩, e⟩, h.2⟩
      · simp only [h2, if_false]
        split
        · exact hw
        · next e =>
          simp only [Memory.wfFrom, Bool.and_eq_true, decide_eq_true_eq]
          exact ⟨⟨⟨hl, ha⟩, e⟩, ⟨⟨by omega, h.1.1.2⟩, h.1.2⟩, h.2⟩

theorem Memory.wf_write {m : Memory} {a : Nat} (v : Byte) (h : m.wf font = true) (ha : a < Config.memSize) :
    (Memory.write font m a v).wf font = true :=
  Memory.wfFrom_write v h (Nat.zero_le a) ha

theorem State.memWf_resetFor (p : Params) : (State.resetFor p).memWf = true := rfl

/-! ### Runs of bytes -/

@[simp] theorem Memory.readBytes_length (m : Memory) (a n : Nat) : (m.readBytes font a n).length = n := by
  induction n generalizing a with
  | zero => rfl
  | succ n ih => simp [Memory.readBytes, ih]

theorem Memory.readBytes_getElem (m : Memory) (a n i : Nat) (h : i < (m.readBytes font a n).length) :
    (m.readBytes font a n)[i] = m.read font (a + i) := by
  induction n generalizing a i with
  | zero => simp [Memory.readBytes] at h
  | succ n ih =>
    cases i with
    | zero => rfl
    | succ i =>
      simp only [Memory.readBytes, List.getElem_cons_succ]
      rw [ih]
      congr 1
      omega

/-- Storing bytes leaves every byte outside them alone, in any memory. -/
theorem Memory.read_writeBytes_outside (m : Memory) (a b : Nat) (bs : List Byte)
    (h : b < a ∨ a + bs.length ≤ b) : (m.writeBytes font a bs).read font b = m.read font b := by
  induction bs generalizing m a with
  | nil => rfl
  | cons v bs ih =>
    simp only [List.length_cons] at h
    simp only [Memory.writeBytes]
    rw [ih _ _ (by omega), Memory.read_write_ne _ _ (by omega)]

theorem Memory.wf_writeBytes {m : Memory} {a : Nat} (bs : List Byte) (h : m.wf font = true)
    (ha : a + bs.length ≤ Config.memSize) : (m.writeBytes font a bs).wf font = true := by
  induction bs generalizing m a with
  | nil => exact h
  | cons v bs ih =>
    simp only [List.length_cons] at ha
    exact ih (Memory.wf_write v h (by omega)) (by omega)

/-- Each stored byte reads back. -/
theorem Memory.read_writeBytes_inside {m : Memory} {a : Nat} (bs : List Byte) (h : m.wf font = true)
    (ha : a + bs.length ≤ Config.memSize) (i : Nat) (hi : i < bs.length) :
    (m.writeBytes font a bs).read font (a + i) = bs[i] := by
  induction bs generalizing m a i with
  | nil => simp at hi
  | cons v bs ih =>
    simp only [List.length_cons] at ha hi
    cases i with
    | zero =>
      simp only [Memory.writeBytes, Nat.add_zero, List.getElem_cons_zero]
      rw [Memory.read_writeBytes_outside _ _ _ _ (by omega)]
      exact Memory.read_write_same v h
    | succ i =>
      simp only [Memory.writeBytes, List.getElem_cons_succ]
      rw [show a + (i + 1) = (a + 1) + i by omega]
      exact ih (Memory.wf_write v h (by omega)) (by omega) i (by omega)

/-! ### Bytes of a state after a store -/

/-- Storing bytes leaves every byte outside them alone. -/
theorem State.byte_store_outside (s : State) (a b : Nat) (bs : List Byte) (h : b < a ∨ a + bs.length ≤ b) :
    (s.setMem (s.mem.writeBytes s.params.font a bs)).byte b = s.byte b :=
  Memory.read_writeBytes_outside s.mem a b bs h

/-- Each stored byte reads back. -/
theorem State.byte_store_inside {s : State} {a : Nat} {bs : List Byte} (h : s.memWf = true)
    (ha : a + bs.length ≤ Config.memSize) (i : Nat) (hi : i < bs.length) :
    (s.setMem (s.mem.writeBytes s.params.font a bs)).byte (a + i) = bs[i] :=
  Memory.read_writeBytes_inside bs h ha i hi

/-- Storing bytes keeps the canonical form. -/
theorem State.memWf_store {s : State} {a : Nat} {bs : List Byte} (h : s.memWf = true)
    (ha : a + bs.length ≤ Config.memSize) : (s.setMem (s.mem.writeBytes s.params.font a bs)).memWf = true :=
  Memory.wf_writeBytes bs h ha

/-! ### The access primitives -/

/-- Everything `MemRead` can do when it succeeds (R41). -/
theorem memRead_ok {m : Memory} {addr n : Nat} {bs : List Byte} (h : memRead font m addr n = .ok bs) :
    addr + n ≤ Config.memSize ∧ bs = m.readBytes font addr n := by
  unfold memRead at h
  split at h
  · cases h
  · cases h; exact ⟨by omega, rfl⟩

theorem memRead_in_range {m : Memory} {addr n : Nat} (h : addr + n ≤ Config.memSize) :
    memRead font m addr n = .ok (m.readBytes font addr n) := by
  unfold memRead; rw [if_neg (by omega)]

theorem memRead_out_of_range {m : Memory} {addr n : Nat} (h : addr + n > Config.memSize) :
    memRead font m addr n = .error .outOfBounds := by
  unfold memRead; rw [if_pos h]

/-- Everything `MemWrite` can do when it succeeds (R42). -/
theorem memWrite_ok {m m' : Memory} {addr : Nat} {bs : List Byte} (h : memWrite font m addr bs = .ok m') :
    addr + bs.length ≤ Config.memSize ∧ m' = m.writeBytes font addr bs := by
  unfold memWrite at h
  split at h
  · cases h
  · cases h; exact ⟨by omega, rfl⟩

theorem memWrite_in_range {m : Memory} {addr : Nat} {bs : List Byte} (h : addr + bs.length ≤ Config.memSize) :
    memWrite font m addr bs = .ok (m.writeBytes font addr bs) := by
  unfold memWrite; rw [if_neg (by omega)]

theorem memWrite_out_of_range {m : Memory} {addr : Nat} {bs : List Byte} (h : addr + bs.length > Config.memSize) :
    memWrite font m addr bs = .error .outOfBounds := by
  unfold memWrite; rw [if_pos h]

/-- A successful `MemWrite` keeps the canonical form. -/
theorem memWrite_keeps_wf {m m' : Memory} {addr : Nat} {bs : List Byte} (h : memWrite font m addr bs = .ok m')
    (hw : m.wf font = true) : m'.wf font = true := by
  obtain ⟨hr, rfl⟩ := memWrite_ok h
  exact Memory.wf_writeBytes bs hw hr

/-- Everything the fetch can do (R43). -/
theorem fetch_ok {s : State} {w : Word} (h : fetch s = .ok w) :
    s.pc.toNat ≤ 0xFFE ∧ w = wordOfBytes (s.byte s.pc.toNat) (s.byte (s.pc.toNat + 1)) := by
  unfold fetch at h
  split at h
  · cases h
  · next hp => cases h; exact ⟨by simp only [Config.memSize] at hp; omega, rfl⟩

theorem fetch_error {s : State} {k : ErrorKind} (h : fetch s = .error k) :
    0xFFF ≤ s.pc.toNat ∧ k = .outOfBounds := by
  unfold fetch at h
  split at h
  · next hp => cases h; exact ⟨by simp only [Config.memSize] at hp; omega, rfl⟩
  · cases h

/-- Placing a word keeps the canonical form. -/
theorem State.placeWord_keeps_memWf {s : State} (w : Word) (h : s.memWf = true) : (s.placeWord w).memWf = true := by
  unfold State.placeWord
  apply Memory.wf_writeBytes _ h
  simp only [bytesOfWord, List.length_cons, List.length_nil]
  split
  · decide
  · next hp => simp only [Config.memSize] at hp ⊢; omega

end Sys2Proof.Machine
end

