-- ==== Sys2Proof/Laws/State.lean ====
section
/-! SUPPORT. One lemma for each field of the state under each named update, so that no later proof unfolds a record
update; then the lemmas of the register read under each update. -/

namespace Sys2Proof.Machine

variable (s : State)

/-! ### setV -/

@[simp] theorem State.setV_V (r : Reg) (v : Byte) : (s.setV r v).V = s.V.set r.val v r.isLt := rfl
@[simp] theorem State.setV_I (r : Reg) (v : Byte) : (s.setV r v).I = s.I := rfl
@[simp] theorem State.setV_pc (r : Reg) (v : Byte) : (s.setV r v).pc = s.pc := rfl
@[simp] theorem State.setV_stack (r : Reg) (v : Byte) : (s.setV r v).stack = s.stack := rfl
@[simp] theorem State.setV_mem (r : Reg) (v : Byte) : (s.setV r v).mem = s.mem := rfl
@[simp] theorem State.setV_fb (r : Reg) (v : Byte) : (s.setV r v).fb = s.fb := rfl
@[simp] theorem State.setV_DT (r : Reg) (v : Byte) : (s.setV r v).DT = s.DT := rfl
@[simp] theorem State.setV_ST (r : Reg) (v : Byte) : (s.setV r v).ST = s.ST := rfl
@[simp] theorem State.setV_mode (r : Reg) (v : Byte) : (s.setV r v).mode = s.mode := rfl
@[simp] theorem State.setV_err (r : Reg) (v : Byte) : (s.setV r v).err = s.err := rfl
@[simp] theorem State.setV_kx (r : Reg) (v : Byte) : (s.setV r v).kx = s.kx := rfl
@[simp] theorem State.setV_keys (r : Reg) (v : Byte) : (s.setV r v).keys = s.keys := rfl
@[simp] theorem State.setV_schedule (r : Reg) (v : Byte) : (s.setV r v).schedule = s.schedule := rfl
@[simp] theorem State.setV_samples (r : Reg) (v : Byte) : (s.setV r v).samples = s.samples := rfl
@[simp] theorem State.setV_drawn (r : Reg) (v : Byte) : (s.setV r v).drawn = s.drawn := rfl
@[simp] theorem State.setV_params (r : Reg) (v : Byte) : (s.setV r v).params = s.params := rfl
@[simp] theorem State.setV_byte (r : Reg) (v : Byte) (i : Nat) : (s.setV r v).byte i = s.byte i := rfl
@[simp] theorem State.setV_memWf (r : Reg) (v : Byte) : (s.setV r v).memWf = s.memWf := rfl

/-! ### setI -/

@[simp] theorem State.setI_V (a : Word) : (s.setI a).V = s.V := rfl
@[simp] theorem State.setI_I (a : Word) : (s.setI a).I = a := rfl
@[simp] theorem State.setI_pc (a : Word) : (s.setI a).pc = s.pc := rfl
@[simp] theorem State.setI_stack (a : Word) : (s.setI a).stack = s.stack := rfl
@[simp] theorem State.setI_mem (a : Word) : (s.setI a).mem = s.mem := rfl
@[simp] theorem State.setI_fb (a : Word) : (s.setI a).fb = s.fb := rfl
@[simp] theorem State.setI_DT (a : Word) : (s.setI a).DT = s.DT := rfl
@[simp] theorem State.setI_ST (a : Word) : (s.setI a).ST = s.ST := rfl
@[simp] theorem State.setI_mode (a : Word) : (s.setI a).mode = s.mode := rfl
@[simp] theorem State.setI_err (a : Word) : (s.setI a).err = s.err := rfl
@[simp] theorem State.setI_kx (a : Word) : (s.setI a).kx = s.kx := rfl
@[simp] theorem State.setI_keys (a : Word) : (s.setI a).keys = s.keys := rfl
@[simp] theorem State.setI_schedule (a : Word) : (s.setI a).schedule = s.schedule := rfl
@[simp] theorem State.setI_samples (a : Word) : (s.setI a).samples = s.samples := rfl
@[simp] theorem State.setI_drawn (a : Word) : (s.setI a).drawn = s.drawn := rfl
@[simp] theorem State.setI_params (a : Word) : (s.setI a).params = s.params := rfl
@[simp] theorem State.setI_byte (a : Word) (i : Nat) : (s.setI a).byte i = s.byte i := rfl
@[simp] theorem State.setI_memWf (a : Word) : (s.setI a).memWf = s.memWf := rfl
@[simp] theorem State.setI_getV (a : Word) (i : Reg) : (s.setI a).getV i = s.getV i := rfl

/-! ### setPc -/

@[simp] theorem State.setPc_V (a : Word) : (s.setPc a).V = s.V := rfl
@[simp] theorem State.setPc_I (a : Word) : (s.setPc a).I = s.I := rfl
@[simp] theorem State.setPc_pc (a : Word) : (s.setPc a).pc = a := rfl
@[simp] theorem State.setPc_stack (a : Word) : (s.setPc a).stack = s.stack := rfl
@[simp] theorem State.setPc_mem (a : Word) : (s.setPc a).mem = s.mem := rfl
@[simp] theorem State.setPc_fb (a : Word) : (s.setPc a).fb = s.fb := rfl
@[simp] theorem State.setPc_DT (a : Word) : (s.setPc a).DT = s.DT := rfl
@[simp] theorem State.setPc_ST (a : Word) : (s.setPc a).ST = s.ST := rfl
@[simp] theorem State.setPc_mode (a : Word) : (s.setPc a).mode = s.mode := rfl
@[simp] theorem State.setPc_err (a : Word) : (s.setPc a).err = s.err := rfl
@[simp] theorem State.setPc_kx (a : Word) : (s.setPc a).kx = s.kx := rfl
@[simp] theorem State.setPc_keys (a : Word) : (s.setPc a).keys = s.keys := rfl
@[simp] theorem State.setPc_schedule (a : Word) : (s.setPc a).schedule = s.schedule := rfl
@[simp] theorem State.setPc_samples (a : Word) : (s.setPc a).samples = s.samples := rfl
@[simp] theorem State.setPc_drawn (a : Word) : (s.setPc a).drawn = s.drawn := rfl
@[simp] theorem State.setPc_params (a : Word) : (s.setPc a).params = s.params := rfl
@[simp] theorem State.setPc_byte (a : Word) (i : Nat) : (s.setPc a).byte i = s.byte i := rfl
@[simp] theorem State.setPc_memWf (a : Word) : (s.setPc a).memWf = s.memWf := rfl
@[simp] theorem State.setPc_getV (a : Word) (i : Reg) : (s.setPc a).getV i = s.getV i := rfl

/-! ### advance -/

@[simp] theorem State.advance_V : s.advance.V = s.V := rfl
@[simp] theorem State.advance_I : s.advance.I = s.I := rfl
@[simp] theorem State.advance_pc : s.advance.pc = s.pc + 2 := rfl
@[simp] theorem State.advance_stack : s.advance.stack = s.stack := rfl
@[simp] theorem State.advance_mem : s.advance.mem = s.mem := rfl
@[simp] theorem State.advance_fb : s.advance.fb = s.fb := rfl
@[simp] theorem State.advance_DT : s.advance.DT = s.DT := rfl
@[simp] theorem State.advance_ST : s.advance.ST = s.ST := rfl
@[simp] theorem State.advance_mode : s.advance.mode = s.mode := rfl
@[simp] theorem State.advance_err : s.advance.err = s.err := rfl
@[simp] theorem State.advance_kx : s.advance.kx = s.kx := rfl
@[simp] theorem State.advance_keys : s.advance.keys = s.keys := rfl
@[simp] theorem State.advance_schedule : s.advance.schedule = s.schedule := rfl
@[simp] theorem State.advance_samples : s.advance.samples = s.samples := rfl
@[simp] theorem State.advance_drawn : s.advance.drawn = s.drawn := rfl
@[simp] theorem State.advance_params : s.advance.params = s.params := rfl
@[simp] theorem State.advance_byte (i : Nat) : s.advance.byte i = s.byte i := rfl
@[simp] theorem State.advance_memWf : s.advance.memWf = s.memWf := rfl
@[simp] theorem State.advance_getV (i : Reg) : s.advance.getV i = s.getV i := rfl

/-! ### skipIf -/

@[simp] theorem State.skipIf_V (c : Bool) : (s.skipIf c).V = s.V := rfl
@[simp] theorem State.skipIf_I (c : Bool) : (s.skipIf c).I = s.I := rfl
@[simp] theorem State.skipIf_pc (c : Bool) : (s.skipIf c).pc = if c then s.pc + 4 else s.pc + 2 := rfl
@[simp] theorem State.skipIf_stack (c : Bool) : (s.skipIf c).stack = s.stack := rfl
@[simp] theorem State.skipIf_mem (c : Bool) : (s.skipIf c).mem = s.mem := rfl
@[simp] theorem State.skipIf_fb (c : Bool) : (s.skipIf c).fb = s.fb := rfl
@[simp] theorem State.skipIf_DT (c : Bool) : (s.skipIf c).DT = s.DT := rfl
@[simp] theorem State.skipIf_ST (c : Bool) : (s.skipIf c).ST = s.ST := rfl
@[simp] theorem State.skipIf_mode (c : Bool) : (s.skipIf c).mode = s.mode := rfl
@[simp] theorem State.skipIf_err (c : Bool) : (s.skipIf c).err = s.err := rfl
@[simp] theorem State.skipIf_kx (c : Bool) : (s.skipIf c).kx = s.kx := rfl
@[simp] theorem State.skipIf_keys (c : Bool) : (s.skipIf c).keys = s.keys := rfl
@[simp] theorem State.skipIf_schedule (c : Bool) : (s.skipIf c).schedule = s.schedule := rfl
@[simp] theorem State.skipIf_samples (c : Bool) : (s.skipIf c).samples = s.samples := rfl
@[simp] theorem State.skipIf_drawn (c : Bool) : (s.skipIf c).drawn = s.drawn := rfl
@[simp] theorem State.skipIf_params (c : Bool) : (s.skipIf c).params = s.params := rfl
@[simp] theorem State.skipIf_byte (c : Bool) (i : Nat) : (s.skipIf c).byte i = s.byte i := rfl
@[simp] theorem State.skipIf_memWf (c : Bool) : (s.skipIf c).memWf = s.memWf := rfl
@[simp] theorem State.skipIf_getV (c : Bool) (i : Reg) : (s.skipIf c).getV i = s.getV i := rfl

/-! ### setDT -/

@[simp] theorem State.setDT_V (v : Byte) : (s.setDT v).V = s.V := rfl
@[simp] theorem State.setDT_I (v : Byte) : (s.setDT v).I = s.I := rfl
@[simp] theorem State.setDT_pc (v : Byte) : (s.setDT v).pc = s.pc := rfl
@[simp] theorem State.setDT_stack (v : Byte) : (s.setDT v).stack = s.stack := rfl
@[simp] theorem State.setDT_mem (v : Byte) : (s.setDT v).mem = s.mem := rfl
@[simp] theorem State.setDT_fb (v : Byte) : (s.setDT v).fb = s.fb := rfl
@[simp] theorem State.setDT_DT (v : Byte) : (s.setDT v).DT = v := rfl
@[simp] theorem State.setDT_ST (v : Byte) : (s.setDT v).ST = s.ST := rfl
@[simp] theorem State.setDT_mode (v : Byte) : (s.setDT v).mode = s.mode := rfl
@[simp] theorem State.setDT_err (v : Byte) : (s.setDT v).err = s.err := rfl
@[simp] theorem State.setDT_kx (v : Byte) : (s.setDT v).kx = s.kx := rfl
@[simp] theorem State.setDT_keys (v : Byte) : (s.setDT v).keys = s.keys := rfl
@[simp] theorem State.setDT_schedule (v : Byte) : (s.setDT v).schedule = s.schedule := rfl
@[simp] theorem State.setDT_samples (v : Byte) : (s.setDT v).samples = s.samples := rfl
@[simp] theorem State.setDT_drawn (v : Byte) : (s.setDT v).drawn = s.drawn := rfl
@[simp] theorem State.setDT_params (v : Byte) : (s.setDT v).params = s.params := rfl
@[simp] theorem State.setDT_byte (v : Byte) (i : Nat) : (s.setDT v).byte i = s.byte i := rfl
@[simp] theorem State.setDT_memWf (v : Byte) : (s.setDT v).memWf = s.memWf := rfl
@[simp] theorem State.setDT_getV (v : Byte) (i : Reg) : (s.setDT v).getV i = s.getV i := rfl

/-! ### setST -/

@[simp] theorem State.setST_V (v : Byte) : (s.setST v).V = s.V := rfl
@[simp] theorem State.setST_I (v : Byte) : (s.setST v).I = s.I := rfl
@[simp] theorem State.setST_pc (v : Byte) : (s.setST v).pc = s.pc := rfl
@[simp] theorem State.setST_stack (v : Byte) : (s.setST v).stack = s.stack := rfl
@[simp] theorem State.setST_mem (v : Byte) : (s.setST v).mem = s.mem := rfl
@[simp] theorem State.setST_fb (v : Byte) : (s.setST v).fb = s.fb := rfl
@[simp] theorem State.setST_DT (v : Byte) : (s.setST v).DT = s.DT := rfl
@[simp] theorem State.setST_ST (v : Byte) : (s.setST v).ST = v := rfl
@[simp] theorem State.setST_mode (v : Byte) : (s.setST v).mode = s.mode := rfl
@[simp] theorem State.setST_err (v : Byte) : (s.setST v).err = s.err := rfl
@[simp] theorem State.setST_kx (v : Byte) : (s.setST v).kx = s.kx := rfl
@[simp] theorem State.setST_keys (v : Byte) : (s.setST v).keys = s.keys := rfl
@[simp] theorem State.setST_schedule (v : Byte) : (s.setST v).schedule = s.schedule := rfl
@[simp] theorem State.setST_samples (v : Byte) : (s.setST v).samples = s.samples := rfl
@[simp] theorem State.setST_drawn (v : Byte) : (s.setST v).drawn = s.drawn := rfl
@[simp] theorem State.setST_params (v : Byte) : (s.setST v).params = s.params := rfl
@[simp] theorem State.setST_byte (v : Byte) (i : Nat) : (s.setST v).byte i = s.byte i := rfl
@[simp] theorem State.setST_memWf (v : Byte) : (s.setST v).memWf = s.memWf := rfl
@[simp] theorem State.setST_getV (v : Byte) (i : Reg) : (s.setST v).getV i = s.getV i := rfl

/-! ### setMem -/

@[simp] theorem State.setMem_V (m : Memory) : (s.setMem m).V = s.V := rfl
@[simp] theorem State.setMem_I (m : Memory) : (s.setMem m).I = s.I := rfl
@[simp] theorem State.setMem_pc (m : Memory) : (s.setMem m).pc = s.pc := rfl
@[simp] theorem State.setMem_stack (m : Memory) : (s.setMem m).stack = s.stack := rfl
@[simp] theorem State.setMem_mem (m : Memory) : (s.setMem m).mem = m := rfl
@[simp] theorem State.setMem_fb (m : Memory) : (s.setMem m).fb = s.fb := rfl
@[simp] theorem State.setMem_DT (m : Memory) : (s.setMem m).DT = s.DT := rfl
@[simp] theorem State.setMem_ST (m : Memory) : (s.setMem m).ST = s.ST := rfl
@[simp] theorem State.setMem_mode (m : Memory) : (s.setMem m).mode = s.mode := rfl
@[simp] theorem State.setMem_err (m : Memory) : (s.setMem m).err = s.err := rfl
@[simp] theorem State.setMem_kx (m : Memory) : (s.setMem m).kx = s.kx := rfl
@[simp] theorem State.setMem_keys (m : Memory) : (s.setMem m).keys = s.keys := rfl
@[simp] theorem State.setMem_schedule (m : Memory) : (s.setMem m).schedule = s.schedule := rfl
@[simp] theorem State.setMem_samples (m : Memory) : (s.setMem m).samples = s.samples := rfl
@[simp] theorem State.setMem_drawn (m : Memory) : (s.setMem m).drawn = s.drawn := rfl
@[simp] theorem State.setMem_params (m : Memory) : (s.setMem m).params = s.params := rfl
@[simp] theorem State.setMem_byte (m : Memory) (i : Nat) : (s.setMem m).byte i = m.read s.params.font i := rfl
@[simp] theorem State.setMem_memWf (m : Memory) : (s.setMem m).memWf = m.wf s.params.font := rfl
@[simp] theorem State.setMem_getV (m : Memory) (i : Reg) : (s.setMem m).getV i = s.getV i := rfl

/-! ### setFb -/

@[simp] theorem State.setFb_V (fb : Framebuffer) : (s.setFb fb).V = s.V := rfl
@[simp] theorem State.setFb_I (fb : Framebuffer) : (s.setFb fb).I = s.I := rfl
@[simp] theorem State.setFb_pc (fb : Framebuffer) : (s.setFb fb).pc = s.pc := rfl
@[simp] theorem State.setFb_stack (fb : Framebuffer) : (s.setFb fb).stack = s.stack := rfl
@[simp] theorem State.setFb_mem (fb : Framebuffer) : (s.setFb fb).mem = s.mem := rfl
@[simp] theorem State.setFb_fb (fb : Framebuffer) : (s.setFb fb).fb = fb := rfl
@[simp] theorem State.setFb_DT (fb : Framebuffer) : (s.setFb fb).DT = s.DT := rfl
@[simp] theorem State.setFb_ST (fb : Framebuffer) : (s.setFb fb).ST = s.ST := rfl
@[simp] theorem State.setFb_mode (fb : Framebuffer) : (s.setFb fb).mode = s.mode := rfl
@[simp] theorem State.setFb_err (fb : Framebuffer) : (s.setFb fb).err = s.err := rfl
@[simp] theorem State.setFb_kx (fb : Framebuffer) : (s.setFb fb).kx = s.kx := rfl
@[simp] theorem State.setFb_keys (fb : Framebuffer) : (s.setFb fb).keys = s.keys := rfl
@[simp] theorem State.setFb_schedule (fb : Framebuffer) : (s.setFb fb).schedule = s.schedule := rfl
@[simp] theorem State.setFb_samples (fb : Framebuffer) : (s.setFb fb).samples = s.samples := rfl
@[simp] theorem State.setFb_drawn (fb : Framebuffer) : (s.setFb fb).drawn = s.drawn := rfl
@[simp] theorem State.setFb_params (fb : Framebuffer) : (s.setFb fb).params = s.params := rfl
@[simp] theorem State.setFb_byte (fb : Framebuffer) (i : Nat) : (s.setFb fb).byte i = s.byte i := rfl
@[simp] theorem State.setFb_memWf (fb : Framebuffer) : (s.setFb fb).memWf = s.memWf := rfl
@[simp] theorem State.setFb_getV (fb : Framebuffer) (i : Reg) : (s.setFb fb).getV i = s.getV i := rfl

/-! ### waitForKey -/

@[simp] theorem State.waitForKey_V (x : Reg) : (s.waitForKey x).V = s.V := rfl
@[simp] theorem State.waitForKey_I (x : Reg) : (s.waitForKey x).I = s.I := rfl
@[simp] theorem State.waitForKey_pc (x : Reg) : (s.waitForKey x).pc = s.pc := rfl
@[simp] theorem State.waitForKey_stack (x : Reg) : (s.waitForKey x).stack = s.stack := rfl
@[simp] theorem State.waitForKey_mem (x : Reg) : (s.waitForKey x).mem = s.mem := rfl
@[simp] theorem State.waitForKey_fb (x : Reg) : (s.waitForKey x).fb = s.fb := rfl
@[simp] theorem State.waitForKey_DT (x : Reg) : (s.waitForKey x).DT = s.DT := rfl
@[simp] theorem State.waitForKey_ST (x : Reg) : (s.waitForKey x).ST = s.ST := rfl
@[simp] theorem State.waitForKey_mode (x : Reg) : (s.waitForKey x).mode = Mode.waitingForKey := rfl
@[simp] theorem State.waitForKey_err (x : Reg) : (s.waitForKey x).err = s.err := rfl
@[simp] theorem State.waitForKey_kx (x : Reg) : (s.waitForKey x).kx = x := rfl
@[simp] theorem State.waitForKey_keys (x : Reg) : (s.waitForKey x).keys = s.keys := rfl
@[simp] theorem State.waitForKey_schedule (x : Reg) : (s.waitForKey x).schedule = s.schedule := rfl
@[simp] theorem State.waitForKey_samples (x : Reg) : (s.waitForKey x).samples = s.samples := rfl
@[simp] theorem State.waitForKey_drawn (x : Reg) : (s.waitForKey x).drawn = s.drawn := rfl
@[simp] theorem State.waitForKey_params (x : Reg) : (s.waitForKey x).params = s.params := rfl
@[simp] theorem State.waitForKey_byte (x : Reg) (i : Nat) : (s.waitForKey x).byte i = s.byte i := rfl
@[simp] theorem State.waitForKey_memWf (x : Reg) : (s.waitForKey x).memWf = s.memWf := rfl
@[simp] theorem State.waitForKey_getV (x : Reg) (i : Reg) : (s.waitForKey x).getV i = s.getV i := rfl

/-! ### loadRegs -/

@[simp] theorem State.loadRegs_V (bs : List Byte) : (s.loadRegs bs).V = regsLoadedFrom s.V 0 bs := rfl
@[simp] theorem State.loadRegs_I (bs : List Byte) : (s.loadRegs bs).I = s.I := rfl
@[simp] theorem State.loadRegs_pc (bs : List Byte) : (s.loadRegs bs).pc = s.pc := rfl
@[simp] theorem State.loadRegs_stack (bs : List Byte) : (s.loadRegs bs).stack = s.stack := rfl
@[simp] theorem State.loadRegs_mem (bs : List Byte) : (s.loadRegs bs).mem = s.mem := rfl
@[simp] theorem State.loadRegs_fb (bs : List Byte) : (s.loadRegs bs).fb = s.fb := rfl
@[simp] theorem State.loadRegs_DT (bs : List Byte) : (s.loadRegs bs).DT = s.DT := rfl
@[simp] theorem State.loadRegs_ST (bs : List Byte) : (s.loadRegs bs).ST = s.ST := rfl
@[simp] theorem State.loadRegs_mode (bs : List Byte) : (s.loadRegs bs).mode = s.mode := rfl
@[simp] theorem State.loadRegs_err (bs : List Byte) : (s.loadRegs bs).err = s.err := rfl
@[simp] theorem State.loadRegs_kx (bs : List Byte) : (s.loadRegs bs).kx = s.kx := rfl
@[simp] theorem State.loadRegs_keys (bs : List Byte) : (s.loadRegs bs).keys = s.keys := rfl
@[simp] theorem State.loadRegs_schedule (bs : List Byte) : (s.loadRegs bs).schedule = s.schedule := rfl
@[simp] theorem State.loadRegs_samples (bs : List Byte) : (s.loadRegs bs).samples = s.samples := rfl
@[simp] theorem State.loadRegs_drawn (bs : List Byte) : (s.loadRegs bs).drawn = s.drawn := rfl
@[simp] theorem State.loadRegs_params (bs : List Byte) : (s.loadRegs bs).params = s.params := rfl
@[simp] theorem State.loadRegs_byte (bs : List Byte) (i : Nat) : (s.loadRegs bs).byte i = s.byte i := rfl
@[simp] theorem State.loadRegs_memWf (bs : List Byte) : (s.loadRegs bs).memWf = s.memWf := rfl

/-! ### setKey -/

@[simp] theorem State.setKey_V (k : Key) (b : Bool) : (s.setKey k b).V = s.V := rfl
@[simp] theorem State.setKey_I (k : Key) (b : Bool) : (s.setKey k b).I = s.I := rfl
@[simp] theorem State.setKey_pc (k : Key) (b : Bool) : (s.setKey k b).pc = s.pc := rfl
@[simp] theorem State.setKey_stack (k : Key) (b : Bool) : (s.setKey k b).stack = s.stack := rfl
@[simp] theorem State.setKey_mem (k : Key) (b : Bool) : (s.setKey k b).mem = s.mem := rfl
@[simp] theorem State.setKey_fb (k : Key) (b : Bool) : (s.setKey k b).fb = s.fb := rfl
@[simp] theorem State.setKey_DT (k : Key) (b : Bool) : (s.setKey k b).DT = s.DT := rfl
@[simp] theorem State.setKey_ST (k : Key) (b : Bool) : (s.setKey k b).ST = s.ST := rfl
@[simp] theorem State.setKey_mode (k : Key) (b : Bool) : (s.setKey k b).mode = s.mode := rfl
@[simp] theorem State.setKey_err (k : Key) (b : Bool) : (s.setKey k b).err = s.err := rfl
@[simp] theorem State.setKey_kx (k : Key) (b : Bool) : (s.setKey k b).kx = s.kx := rfl
@[simp] theorem State.setKey_keys (k : Key) (b : Bool) : (s.setKey k b).keys = s.keys.set k.val b k.isLt := rfl
@[simp] theorem State.setKey_schedule (k : Key) (b : Bool) : (s.setKey k b).schedule = s.schedule := rfl
@[simp] theorem State.setKey_samples (k : Key) (b : Bool) : (s.setKey k b).samples = s.samples := rfl
@[simp] theorem State.setKey_drawn (k : Key) (b : Bool) : (s.setKey k b).drawn = s.drawn := rfl
@[simp] theorem State.setKey_params (k : Key) (b : Bool) : (s.setKey k b).params = s.params := rfl
@[simp] theorem State.setKey_byte (k : Key) (b : Bool) (i : Nat) : (s.setKey k b).byte i = s.byte i := rfl
@[simp] theorem State.setKey_memWf (k : Key) (b : Bool) : (s.setKey k b).memWf = s.memWf := rfl
@[simp] theorem State.setKey_getV (k : Key) (b : Bool) (i : Reg) : (s.setKey k b).getV i = s.getV i := rfl

/-! ### raise -/

@[simp] theorem State.raise_V (k : ErrorKind) : (s.raise k).V = s.V := rfl
@[simp] theorem State.raise_I (k : ErrorKind) : (s.raise k).I = s.I := rfl
@[simp] theorem State.raise_pc (k : ErrorKind) : (s.raise k).pc = s.pc := rfl
@[simp] theorem State.raise_stack (k : ErrorKind) : (s.raise k).stack = s.stack := rfl
@[simp] theorem State.raise_mem (k : ErrorKind) : (s.raise k).mem = s.mem := rfl
@[simp] theorem State.raise_fb (k : ErrorKind) : (s.raise k).fb = s.fb := rfl
@[simp] theorem State.raise_DT (k : ErrorKind) : (s.raise k).DT = s.DT := rfl
@[simp] theorem State.raise_ST (k : ErrorKind) : (s.raise k).ST = s.ST := rfl
@[simp] theorem State.raise_mode (k : ErrorKind) : (s.raise k).mode = Mode.halted := rfl
@[simp] theorem State.raise_err (k : ErrorKind) : (s.raise k).err = some ⟨k, s.pc⟩ := rfl
@[simp] theorem State.raise_kx (k : ErrorKind) : (s.raise k).kx = s.kx := rfl
@[simp] theorem State.raise_keys (k : ErrorKind) : (s.raise k).keys = s.keys := rfl
@[simp] theorem State.raise_schedule (k : ErrorKind) : (s.raise k).schedule = s.schedule := rfl
@[simp] theorem State.raise_samples (k : ErrorKind) : (s.raise k).samples = s.samples := rfl
@[simp] theorem State.raise_drawn (k : ErrorKind) : (s.raise k).drawn = s.drawn := rfl
@[simp] theorem State.raise_params (k : ErrorKind) : (s.raise k).params = s.params := rfl
@[simp] theorem State.raise_byte (k : ErrorKind) (i : Nat) : (s.raise k).byte i = s.byte i := rfl
@[simp] theorem State.raise_memWf (k : ErrorKind) : (s.raise k).memWf = s.memWf := rfl
@[simp] theorem State.raise_getV (k : ErrorKind) (i : Reg) : (s.raise k).getV i = s.getV i := rfl

/-! ### sampleTaken -/

@[simp] theorem State.sampleTaken_V : s.sampleTaken.V = s.V := by
  unfold State.sampleTaken; split <;> rfl
@[simp] theorem State.sampleTaken_I : s.sampleTaken.I = s.I := by
  unfold State.sampleTaken; split <;> rfl
@[simp] theorem State.sampleTaken_pc : s.sampleTaken.pc = s.pc := by
  unfold State.sampleTaken; split <;> rfl
@[simp] theorem State.sampleTaken_stack : s.sampleTaken.stack = s.stack := by
  unfold State.sampleTaken; split <;> rfl
@[simp] theorem State.sampleTaken_mem : s.sampleTaken.mem = s.mem := by
  unfold State.sampleTaken; split <;> rfl
@[simp] theorem State.sampleTaken_fb : s.sampleTaken.fb = s.fb := by
  unfold State.sampleTaken; split <;> rfl
@[simp] theorem State.sampleTaken_DT : s.sampleTaken.DT = s.DT := by
  unfold State.sampleTaken; split <;> rfl
@[simp] theorem State.sampleTaken_ST : s.sampleTaken.ST = s.ST := by
  unfold State.sampleTaken; split <;> rfl
@[simp] theorem State.sampleTaken_mode : s.sampleTaken.mode = s.mode := by
  unfold State.sampleTaken; split <;> rfl
@[simp] theorem State.sampleTaken_err : s.sampleTaken.err = s.err := by
  unfold State.sampleTaken; split <;> rfl
@[simp] theorem State.sampleTaken_kx : s.sampleTaken.kx = s.kx := by
  unfold State.sampleTaken; split <;> rfl
@[simp] theorem State.sampleTaken_keys : s.sampleTaken.keys = s.keys := by
  unfold State.sampleTaken; split <;> rfl
@[simp] theorem State.sampleTaken_schedule : s.sampleTaken.schedule = s.schedule := by
  unfold State.sampleTaken; split <;> rfl
@[simp] theorem State.sampleTaken_params : s.sampleTaken.params = s.params := by
  unfold State.sampleTaken; split <;> rfl
@[simp] theorem State.sampleTaken_byte (i : Nat) : s.sampleTaken.byte i = s.byte i := by
  unfold State.sampleTaken; split <;> rfl
@[simp] theorem State.sampleTaken_memWf : s.sampleTaken.memWf = s.memWf := by
  unfold State.sampleTaken; split <;> rfl
@[simp] theorem State.sampleTaken_getV (i : Reg) : s.sampleTaken.getV i = s.getV i := by
  unfold State.sampleTaken; split <;> rfl

/-! ### What the bytes of a state depend on -/

theorem State.byte_congr {s t : State} (hm : t.mem = s.mem) (hp : t.params = s.params) (a : Nat) :
    t.byte a = s.byte a := by
  unfold State.byte; rw [hm, hp]

theorem State.memWf_congr {s t : State} (hm : t.mem = s.mem) (hp : t.params = s.params) : t.memWf = s.memWf := by
  unfold State.memWf; rw [hm, hp]

/-! ### The register file under its own writes -/

@[simp] theorem State.getV_setV_same (r : Reg) (v : Byte) : (s.setV r v).getV r = v := by
  simp [State.getV]

theorem State.getV_setV_ne (r i : Reg) (v : Byte) (h : i ≠ r) : (s.setV r v).getV i = s.getV i := by
  have : r.val ≠ i.val := fun e => h (Fin.ext e.symm)
  simp [State.getV, Vector.getElem_set_ne, this]

/-- Reading a register after a write, as one equation. -/
theorem State.getV_setV (r i : Reg) (v : Byte) : (s.setV r v).getV i = if i = r then v else s.getV i := by
  split
  · next h => subst h; exact s.getV_setV_same i v
  · next h => exact s.getV_setV_ne r i v h

/-- Two register files that read alike are equal. -/
theorem State.V_ext {s t : State} (h : ∀ r, t.getV r = s.getV r) : t.V = s.V := by
  apply Vector.ext
  intro i hi
  exact h ⟨i, hi⟩

@[simp] theorem State.key_setKey_same (k : Key) (b : Bool) : (s.setKey k b).key k = b := by
  simp [State.key]

theorem State.key_setKey_ne (k j : Key) (b : Bool) (h : j ≠ k) : (s.setKey k b).key j = s.key j := by
  have : k.val ≠ j.val := fun e => h (Fin.ext e.symm)
  simp [State.key, Vector.getElem_set_ne, this]

end Sys2Proof.Machine
end

