-- ==== Sys2Proof/Laws/Ops.lean ====
section
/-! SUPPORT. What each shared operation can do, said once: the end of an instruction, push and pop, the flag write, the
register runs, the key code, the random sample. -/

namespace Sys2Proof.Machine

/-! ### How an instruction ends -/

@[simp] theorem State.complete_ok (s t : State) : s.complete (.ok t) = .next t := rfl

@[simp] theorem State.complete_error (s : State) (k : ErrorKind) : s.complete (.error k) = .next (s.raise k) := rfl

/-- Everything the end of an instruction can be: the state it built, or the error entry from the state it began in. -/
theorem State.complete_next {s t : State} {r : Except ErrorKind State} (h : s.complete r = .next t) :
    r = .ok t ∨ ∃ k, r = .error k ∧ t = s.raise k := by
  cases r with
  | ok u =>
    simp only [State.complete_ok, Host.Outcome.next.injEq] at h
    exact .inl (h ▸ rfl)
  | error k =>
    simp only [State.complete_error, Host.Outcome.next.injEq] at h
    exact .inr ⟨k, rfl, h.symm⟩

/-- The error entry changes the error record and the mode, and nothing else (R177). -/
theorem State.raise_entersError (s : State) (k : ErrorKind) : EntersError k s (s.raise k) := by
  refine ⟨rfl, rfl, ?_⟩
  intro p hp
  cases p <;> simp [AgreeOn] at hp ⊢

@[simp] theorem Except.map_ok_eq {α β : Type} (f : α → β) (a : α) :
    (Except.ok a : Except ErrorKind α).map f = .ok (f a) := rfl

@[simp] theorem Except.map_error_eq {α β : Type} (f : α → β) (k : ErrorKind) :
    (Except.error k : Except ErrorKind α).map f = .error k := rfl

/-! ### The stack (R16) -/

theorem State.push_has_room {d : Nat} {s : State} {a : Word} (h : s.stack.length < d) :
    s.push d a = .ok { s with stack := a :: s.stack } := by
  unfold State.push; rw [if_neg (by omega)]

theorem State.push_full {d : Nat} {s : State} {a : Word} (h : d ≤ s.stack.length) :
    s.push d a = .error .stackOverflow := by
  unfold State.push; rw [if_pos h]

theorem State.pop_empty {s : State} (h : s.stack = []) : s.pop = .error .stackUnderflow := by
  unfold State.pop; rw [h]

theorem State.pop_cons {s : State} {a : Word} {rest : List Word} (h : s.stack = a :: rest) :
    s.pop = .ok (a, { s with stack := rest }) := by
  unfold State.pop; rw [h]

/-! ### Result and flag (R113) -/

theorem State.setResultAndFlag_flag (s : State) (x : Reg) (v : Byte) (f : Bool) :
    (s.setResultAndFlag x v f).getV VF = flagByte f := by
  simp [State.setResultAndFlag]

theorem State.setResultAndFlag_result (s : State) (x : Reg) (v : Byte) (f : Bool) (h : x ≠ VF) :
    (s.setResultAndFlag x v f).getV x = v := by
  simp [State.setResultAndFlag, State.getV_setV, h]

theorem State.setResultAndFlag_other (s : State) (x r : Reg) (v : Byte) (f : Bool) (h : r ≠ x) (h' : r ≠ VF) :
    (s.setResultAndFlag x v f).getV r = s.getV r := by
  simp [State.setResultAndFlag, State.getV_setV, h, h']

/-! ### The target of BNNN (R88) -/

theorem jpV0Target_toNat (wrap : Bool) (v : Byte) (nnn : Imm12) :
    (jpV0Target wrap v nnn).toNat =
      if wrap then (v.toNat + nnn.toNat) % 4096 else v.toNat + nnn.toNat := by
  have := v.isLt
  have := nnn.isLt
  cases wrap <;> simp [jpV0Target, Config.memSize] <;> omega

theorem le_pcLimit (p : Params) : 0x1002 ≤ pcLimit p := by
  unfold pcLimit; split <;> decide

theorem jpV0Target_le_pcLimit (p : Params) (v : Byte) (nnn : Imm12) :
    (jpV0Target p.bnnnWrap v nnn).toNat ≤ pcLimit p := by
  have := v.isLt
  have := nnn.isLt
  rw [jpV0Target_toNat]
  unfold pcLimit
  split <;> omega

/-! ### Runs of registers (R125, R126) -/

theorem regsLoadedFrom_getElem (V : Vector Byte 16) (k : Nat) (bs : List Byte) (i : Nat) (hi : i < 16) :
    (regsLoadedFrom V k bs)[i] = if h : k ≤ i ∧ i - k < bs.length then bs[i - k]'h.2 else V[i] := by
  induction bs generalizing V k with
  | nil => simp [regsLoadedFrom]
  | cons b bs ih =>
    simp only [regsLoadedFrom, ih, Vector.getElem_setIfInBounds, List.length_cons]
    by_cases h1 : k + 1 ≤ i ∧ i - (k + 1) < bs.length
    · have h2 : k ≤ i ∧ i - k < bs.length + 1 := by omega
      have h3 : i - k = (i - (k + 1)) + 1 := by omega
      simp [h1, h2, h3]
    · by_cases h4 : k = i
      · subst h4
        simp
      · have h2 : ¬ (k ≤ i ∧ i - k < bs.length + 1) := by omega
        rw [dif_neg h1, dif_neg h2, if_neg h4]

/-- Loading registers: register `r` receives byte `r`, and the registers above keep their values. -/
theorem State.getV_loadRegs (s : State) (bs : List Byte) (r : Reg) :
    (s.loadRegs bs).getV r = if h : r.val < bs.length then bs[r.val] else s.getV r := by
  have := regsLoadedFrom_getElem s.V 0 bs r.val r.isLt
  simpa [State.getV, State.loadRegs] using this

@[simp] theorem regBytes_length (s : State) (x : Reg) : (regBytes s x).length = x.val + 1 := by
  simp [regBytes, regCount]

theorem regBytes_getElem (s : State) (x : Reg) (i : Nat) (h : i < (regBytes s x).length) :
    (regBytes s x)[i] = s.getV ⟨i, by rw [regBytes_length] at h; have := x.isLt; omega⟩ := by
  simp [regBytes, State.getV]

@[simp] theorem bcdDigits_length (v : Byte) : (bcdDigits v).length = 3 := rfl

/-! ### The key code (R150) -/

theorem keyOf_valid {v : Byte} (h : v.toNat < 16) : keyOf v = .ok ⟨v.toNat, h⟩ := by
  unfold keyOf; rw [dif_pos h]

theorem keyOf_invalid {v : Byte} (h : 16 ≤ v.toNat) : keyOf v = .error .invalidKey := by
  unfold keyOf; rw [dif_neg (by omega)]

/-! ### The random sample (R24) -/

theorem State.sample_supplied {s : State} {r : Byte} {rest : List Byte} (h : s.samples = r :: rest) :
    s.sample = r ∧ s.sampleTaken = { s with samples := rest } := by
  unfold State.sample State.sampleTaken; rw [h]; exact ⟨rfl, rfl⟩

theorem State.sample_free {s : State} (h : s.samples = []) :
    s.sample = Config.freeSample s.drawn ∧ s.sampleTaken = { s with drawn := s.drawn + 1 } := by
  unfold State.sample State.sampleTaken; rw [h]; exact ⟨rfl, rfl⟩

end Sys2Proof.Machine
end

