-- ==== Sys2Proof/Laws/Display.lean ====
section
/-! SUPPORT. What one pixel of a draw does to the cells and to the collision indicator, and that framebuffers with the
same cells are equal. -/

namespace Sys2Proof.Machine

/-- Two framebuffers whose cells agree are equal. -/
theorem fb_ext {f g : Framebuffer} (h : ∀ y x, y < 32 → x < 64 → cell f y x = cell g y x) : f = g := by
  apply Vector.ext
  intro y hy
  apply Vector.ext
  intro x hx
  have := h y x hy hx
  simpa [cell, hy, hx] using this

theorem cell_outside (fb : Framebuffer) {y x : Nat} (h : ¬ (y < 32 ∧ x < 64)) : cell fb y x = false := by
  unfold cell; rw [dif_neg h]

theorem cell_clearedFb (y x : Nat) : cell clearedFb y x = false := by
  unfold cell clearedFb
  split
  · simp
  · rfl

/-- One pixel: its cell is XORed with the source bit where there is a cell, and no other cell changes. -/
theorem cell_drawPixel (y x : Nat) (b : Bool) (d : Draw) (y' x' : Nat) :
    cell (drawPixel y x b d).fb y' x' =
      (cell d.fb y' x' ^^ (b && decide (y' = y ∧ x' = x ∧ y < 32 ∧ x < 64))) := by
  unfold drawPixel
  by_cases h : y < 32 ∧ x < 64
  · obtain ⟨hy, hx⟩ := h
    simp only [hy, hx, and_self, dite_true]
    unfold cell
    by_cases h' : y' < 32 ∧ x' < 64
    · obtain ⟨hy', hx'⟩ := h'
      simp only [hy', hx', and_self, dite_true]
      by_cases e : y = y'
      · subst e
        by_cases e' : x = x'
        · subst e'; simp
        · simp [Vector.getElem_set_ne, e', Ne.symm e']
      · simp [Vector.getElem_set_ne, e, Ne.symm e]
    · have : ¬ (y' = y ∧ x' = x) := by omega
      rw [dif_neg h', dif_neg h']
      simp
      omega
  · rw [dif_neg h]
    have : ¬ (y' = y ∧ x' = x ∧ y < 32 ∧ x < 64) := by tauto
    simp [this]

/-- One pixel collides when it is a set bit over a set cell. -/
theorem c_drawPixel (y x : Nat) (b : Bool) (d : Draw) :
    (drawPixel y x b d).c = (d.c || (b && cell d.fb y x)) := by
  unfold drawPixel
  by_cases h : y < 32 ∧ x < 64
  · rw [dif_pos h]; unfold cell; rw [dif_pos h]
  · rw [dif_neg h, cell_outside _ h]; simp

/-! ### Rows and sprites -/

/-- The bit of a sprite byte that falls on column `x`, among its pixels 8 − todo to 7. -/
def rowBit (byte : Byte) (x0 x : Nat) (todo : Nat) : Bool :=
  if x0 + (8 - todo) ≤ x ∧ x < x0 + 8 then byte.getLsbD (7 - (x - x0)) else false

/-- The pixels of a byte XOR their bits into the cells of one row. -/
theorem cell_drawPixels (byte : Byte) (y x0 todo : Nat) (ht : todo ≤ 8) (d : Draw) (y' x' : Nat) (hy : y' < 32) (hx : x' < 64) :
    cell (drawPixels byte y x0 todo d).fb y' x' = (cell d.fb y' x' ^^ (decide (y' = y) && rowBit byte x0 x' todo)) := by
  induction todo generalizing d with
  | zero =>
    have : ¬ (x0 + 8 ≤ x' ∧ x' < x0 + 8) := by omega
    simp [drawPixels, rowBit, this]
  | succ n ih =>
    simp only [drawPixels]
    rw [ih (by omega), cell_drawPixel]
    by_cases e : y' = y
    · subst e
      by_cases e' : x' = x0 + (7 - n)
      · have h1 : ¬ (x0 + (8 - n) ≤ x' ∧ x' < x0 + 8) := by omega
        have h2 : (x0 + (8 - (n+1)) ≤ x' ∧ x' < x0 + 8) := by omega
        have h3 : 7 - (x' - x0) = n := by omega
        have h4 : x0 + (7 - n) < 64 := by omega
        unfold rowBit
        rw [if_neg h1, if_pos h2, h3]
        simp [e', h4, hy]
      · have h1 : (x0 + (8 - n) ≤ x' ∧ x' < x0 + 8) ↔ (x0 + (8 - (n+1)) ≤ x' ∧ x' < x0 + 8) := by omega
        simp [rowBit, h1, e']
    · simp [e]

/-- The pixels of a byte collide exactly when a set bit falls on a set cell. -/
theorem c_drawPixels (byte : Byte) (y x0 todo : Nat) (ht : todo ≤ 8) (d : Draw) :
    (drawPixels byte y x0 todo d).c = true ↔ (d.c = true ∨ ∃ x', y < 32 ∧ x' < 64 ∧ rowBit byte x0 x' todo = true ∧ cell d.fb y x' = true) := by
  induction todo generalizing d with
  | zero =>
    simp [drawPixels, rowBit]
  | succ n ih =>
    simp only [drawPixels]
    rw [ih (by omega), c_drawPixel]
    have key : ∀ x', y < 32 → x' < 64 → x' ≠ x0 + (7 - n) → cell (drawPixel y (x0 + (7 - n)) (byte.getLsbD n) d).fb y x' = cell d.fb y x' := by
      intro x' _ _ hne
      rw [cell_drawPixel]; simp [hne]
    have hrb : ∀ x', rowBit byte x0 x' (n+1) = true ↔ (rowBit byte x0 x' n = true ∨ (x' = x0 + (7 - n) ∧ byte.getLsbD n = true)) := by
      intro x'
      by_cases e' : x' = x0 + (7 - n)
      · have h1 : ¬ (x0 + (8 - n) ≤ x' ∧ x' < x0 + 8) := by omega
        have h2 : (x0 + (8 - (n+1)) ≤ x' ∧ x' < x0 + 8) := by omega
        have h3 : 7 - (x' - x0) = n := by omega
        unfold rowBit
        rw [if_neg h1, if_pos h2, h3]; simp [e']
      · have h1 : (x0 + (8 - n) ≤ x' ∧ x' < x0 + 8) ↔ (x0 + (8 - (n+1)) ≤ x' ∧ x' < x0 + 8) := by omega
        simp [rowBit, h1, e']
    have hn : ∀ x', rowBit byte x0 x' n = true → x' ≠ x0 + (7 - n) := by
      intro x' h e
      have h1 : ¬ (x0 + (8 - n) ≤ x' ∧ x' < x0 + 8) := by omega
      unfold rowBit at h; rw [if_neg h1] at h; cases h
    constructor
    · rintro (h | ⟨x', a, b, c, e⟩)
      · simp only [Bool.or_eq_true, Bool.and_eq_true] at h
        rcases h with h | ⟨h1, h2⟩
        · exact .inl h
        · refine .inr ⟨x0 + (7 - n), ?_⟩
          have : y < 32 ∧ x0 + (7 - n) < 64 := by
            by_contra hc; rw [cell_outside _ hc] at h2; cases h2
          exact ⟨this.1, this.2, (hrb _).2 (.inr ⟨rfl, h1⟩), h2⟩
      · exact .inr ⟨x', a, b, (hrb _).2 (.inl c), by rw [← key x' a b (hn _ c)]; exact e⟩
    · rintro (h | ⟨x', a, b, c, e⟩)
      · left; simp [h]
      · rcases (hrb _).1 c with c | ⟨c, c'⟩
        · right; exact ⟨x', a, b, c, by rw [key x' a b (hn _ c)]; exact e⟩
        · left; subst c; simp [c', e]

/-- A sprite is its first row and the rest, one row lower. -/
theorem spriteBit_cons (b : Byte) (rows : List Byte) (y0 x0 y x : Nat) :
    spriteBit (b :: rows) y0 x0 y x = (spriteBit rows (y0+1) x0 y x ^^ (decide (y = y0) && rowBit b x0 x 8)) := by
  unfold spriteBit rowBit
  by_cases e : y = y0
  · subst e
    have : ¬ (y + 1 ≤ y ∧ y - (y+1) < rows.length ∧ x0 ≤ x ∧ x - x0 < 8) := by omega
    rw [if_neg this]
    by_cases h : x0 ≤ x ∧ x - x0 < 8
    · have h2 : x0 + (8-8) ≤ x ∧ x < x0 + 8 := by omega
      rw [if_pos h2, if_pos ⟨by omega, by simp, h.1, h.2⟩]; try simp
    · have h2 : ¬ (x0 + (8-8) ≤ x ∧ x < x0 + 8) := by omega
      rw [if_neg h2, if_neg (by omega)]; simp
  · simp only [e, decide_false, Bool.false_and, Bool.bne_false, List.length_cons]
    by_cases h : y0 + 1 ≤ y ∧ y - (y0+1) < rows.length ∧ x0 ≤ x ∧ x - x0 < 8
    · rw [if_pos h, if_pos (by omega)]
      have : y - y0 = (y - (y0+1)) + 1 := by omega
      rw [this]; simp
    · rw [if_neg h, if_neg (by omega)]; try simp

/-- A whole draw: every cell is XORed with the sprite bit that falls on it. -/
theorem cell_drawRows (rows : List Byte) (y0 x0 : Nat) (d : Draw) (y' x' : Nat) (hy : y' < 32) (hx : x' < 64) :
    cell (drawRows y0 x0 rows d).fb y' x' = (cell d.fb y' x' ^^ spriteBit rows y0 x0 y' x') := by
  induction rows generalizing y0 d with
  | nil => simp [drawRows, spriteBit]
  | cons b rows ih =>
    simp only [drawRows, drawRow]
    rw [ih, cell_drawPixels _ _ _ _ (by omega) _ _ _ hy hx, spriteBit_cons]
    cases cell d.fb y' x' <;> cases spriteBit rows (y0+1) x0 y' x' <;> simp

theorem spriteBit_above (rows : List Byte) (y0 x0 y x : Nat) (h : y < y0) : spriteBit rows y0 x0 y x = false := by
  unfold spriteBit; rw [if_neg (by omega)]

/-- A whole draw collides exactly when a sprite bit falls on a set cell. -/
theorem c_drawRows (rows : List Byte) (y0 x0 : Nat) (d : Draw) :
    (drawRows y0 x0 rows d).c = true ↔ (d.c = true ∨ ∃ y' x', y' < 32 ∧ x' < 64 ∧ cell d.fb y' x' = true ∧ spriteBit rows y0 x0 y' x' = true) := by
  induction rows generalizing y0 d with
  | nil => simp [drawRows, spriteBit]
  | cons b rows ih =>
    simp only [drawRows, drawRow]
    rw [ih, c_drawPixels _ _ _ _ (by omega)]
    constructor
    · rintro ((h | ⟨x', a, b', c, e⟩) | ⟨y', x', a, b', c, e⟩)
      · exact .inl h
      · refine .inr ⟨y0, x', a, b', e, ?_⟩
        rw [spriteBit_cons, spriteBit_above _ _ _ _ _ (by omega)]; simp [c]
      · have hy : y' ≠ y0 := by
          intro he; rw [spriteBit_above _ _ _ _ _ (by omega)] at e; cases e
        refine .inr ⟨y', x', a, b', ?_, ?_⟩
        · rw [cell_drawPixels _ _ _ _ (by omega) _ _ _ a b'] at c; simpa [hy] using c
        · rw [spriteBit_cons, e]; simp [hy]
    · rintro (h | ⟨y', x', a, b', c, e⟩)
      · exact .inl (.inl h)
      · by_cases hy : y' = y0
        · subst hy
          rw [spriteBit_cons, spriteBit_above _ _ _ _ _ (by omega)] at e
          left; right; exact ⟨x', a, b', by simpa using e, c⟩
        · right
          refine ⟨y', x', a, b', ?_, ?_⟩
          · rw [cell_drawPixels _ _ _ _ (by omega) _ _ _ a b']; simpa [hy] using c
          · rw [spriteBit_cons] at e; simpa [hy] using e

end Sys2Proof.Machine
end

