-- ==== Sys2Proof/Laws/Exec.lean ====
section
/-! SUPPORT. For each meaning that has a check of its own, one equation for each way it ends; later proofs cite these and
do not unfold the meaning. -/

namespace Sys2Proof.Machine

/-! ### CALL and RET (R81, R83) -/

theorem execCall_has_room {s : State} {nnn : Imm12} (h : s.stack.length < s.params.stackDepth) :
    execCall nnn s = .next (({ s with stack := s.pc :: s.stack } : State).setPc (zextNNN nnn)) := by
  unfold execCall; rw [State.push_has_room h]; rfl

theorem execCall_full {s : State} {nnn : Imm12} (h : s.params.stackDepth ≤ s.stack.length) :
    execCall nnn s = .next (s.raise .stackOverflow) := by
  unfold execCall; rw [State.push_full h]; rfl

theorem execRet_cons {s : State} {a : Word} {rest : List Word} (h : s.stack = a :: rest) :
    execRet s = .next (({ s with stack := rest } : State).setPc (a + 2)) := by
  unfold execRet; rw [State.pop_cons h]; rfl

theorem execRet_empty {s : State} (h : s.stack = []) : execRet s = .next (s.raise .stackUnderflow) := by
  unfold execRet; rw [State.pop_empty h]; rfl

/-! ### Stores at `I` (R124, R125) -/

theorem State.storeAtI_in_range {s : State} {bs : List Byte} (h : s.I.toNat + bs.length ≤ 4096) :
    s.storeAtI bs = .next (s.setMem (s.mem.writeBytes s.params.font s.I.toNat bs)).advance := by
  unfold State.storeAtI dataAddress
  rw [memWrite_in_range (by simpa [Config.memSize] using h)]
  rfl

theorem State.storeAtI_out_of_range {s : State} {bs : List Byte} (h : 4096 < s.I.toNat + bs.length) :
    s.storeAtI bs = .next (s.raise .outOfBounds) := by
  unfold State.storeAtI dataAddress
  rw [memWrite_out_of_range (by simpa [Config.memSize] using h)]
  rfl

/-! ### Loads and draws at `I` (R126, R142) -/

theorem execLdRegs_in_range {s : State} {x : Reg} (h : s.I.toNat + x.val + 1 ≤ 4096) :
    execLdRegs x s = .next (s.loadRegs (s.mem.readBytes s.params.font s.I.toNat (x.val + 1))).advance := by
  unfold execLdRegs dataAddress regCount
  rw [memRead_in_range (by simp only [Config.memSize]; omega)]
  rfl

theorem execLdRegs_out_of_range {s : State} {x : Reg} (h : 4096 < s.I.toNat + x.val + 1) :
    execLdRegs x s = .next (s.raise .outOfBounds) := by
  unfold execLdRegs dataAddress regCount
  rw [memRead_out_of_range (by simp only [Config.memSize]; omega)]
  rfl

theorem execDrw_in_range {s : State} {x y : Reg} {n : Nibble} (h : s.I.toNat + n.toNat ≤ 4096) :
    execDrw x y n s = .next (s.afterDraw (drawSprite s.fb (originY (s.getV y)) (originX (s.getV x))
      (s.mem.readBytes s.params.font s.I.toNat n.toNat))).advance := by
  unfold execDrw dataAddress
  rw [memRead_in_range (by simpa [Config.memSize] using h)]
  rfl

theorem execDrw_out_of_range {s : State} {x y : Reg} {n : Nibble} (h : 4096 < s.I.toNat + n.toNat) :
    execDrw x y n s = .next (s.raise .outOfBounds) := by
  unfold execDrw dataAddress
  rw [memRead_out_of_range (by simpa [Config.memSize] using h)]
  rfl

/-! ### Key skips (R150, R151) -/

theorem execSkp_valid {s : State} {x : Reg} (h : (s.getV x).toNat < 16) :
    execSkp x s = .next (s.skipIf (s.key ⟨(s.getV x).toNat, h⟩)) := by
  unfold execSkp; rw [keyOf_valid h]; rfl

theorem execSkp_invalid {s : State} {x : Reg} (h : 16 ≤ (s.getV x).toNat) :
    execSkp x s = .next (s.raise .invalidKey) := by
  unfold execSkp; rw [keyOf_invalid h]; rfl

theorem execSknp_valid {s : State} {x : Reg} (h : (s.getV x).toNat < 16) :
    execSknp x s = .next (s.skipIf (!s.key ⟨(s.getV x).toNat, h⟩)) := by
  unfold execSknp; rw [keyOf_valid h]; rfl

theorem execSknp_invalid {s : State} {x : Reg} (h : 16 ≤ (s.getV x).toNat) :
    execSknp x s = .next (s.raise .invalidKey) := by
  unfold execSknp; rw [keyOf_invalid h]; rfl

/-! ### The CPU agent's step (R205) -/

theorem cpuStep_fetch_error {s : State} {k : ErrorKind} (h : fetch s = .error k) : cpuStep s = .next (s.raise k) := by
  unfold cpuStep; rw [h]

theorem cpuStep_unknown {s : State} {w : Word} {e : DecodeReject} (h : fetch s = .ok w) (hd : decode w = .error e) :
    cpuStep s = .next (s.raise .unknownOpcode) := by
  unfold cpuStep; simp only [h, hd]

theorem cpuStep_exec {s : State} {w : Word} {i : Instr} (h : fetch s = .ok w) (hd : decode w = .ok i) :
    cpuStep s = exec i s := by
  unfold cpuStep; simp only [h, hd]

/-- Everything the CPU agent's step can be: the error entry of the fetch or of the decoder, or the execution of the
decoded instruction. -/
theorem cpuStep_cases (s : State) :
    (fetch s = .error .outOfBounds ∧ cpuStep s = .next (s.raise .outOfBounds)) ∨
    (∃ w e, fetch s = .ok w ∧ decode w = .error e ∧ cpuStep s = .next (s.raise .unknownOpcode)) ∨
    (∃ w i, fetch s = .ok w ∧ decode w = .ok i ∧ cpuStep s = exec i s) := by
  cases hf : fetch s with
  | error k =>
    obtain ⟨-, rfl⟩ := fetch_error hf
    exact .inl ⟨rfl, cpuStep_fetch_error hf⟩
  | ok w =>
    cases hd : decode w with
    | error e => exact .inr (.inl ⟨w, e, rfl, hd, cpuStep_unknown hf hd⟩)
    | ok i => exact .inr (.inr ⟨w, i, rfl, hd, cpuStep_exec hf hd⟩)

/-- Everything a step can be: nothing scheduled, or the first transition scheduled. -/
theorem step_unscheduled {s : State} (h : s.schedule = []) : step s = unscheduled s := by
  unfold step transition; rw [h]

theorem step_scheduled {s : State} {t : Transition} {rest : List Transition} (h : s.schedule = t :: rest) :
    step s = perform t { s with schedule := rest } := by
  unfold step transition; rw [h]

/-! ### Timers (R185) -/

@[simp] theorem countDown_toNat (v : Byte) : (countDown v).toNat = v.toNat - 1 := by
  unfold countDown
  split
  · next h => subst h; rfl
  · next h =>
    have : v.toNat ≠ 0 := fun e => h (BitVec.eq_of_toNat_eq (by simpa using e))
    have := v.isLt
    simp
    omega

end Sys2Proof.Machine
end

