-- ==== Sys2Proof/Laws/PerInstr.lean ====
section
/-! SUPPORT. Statements made for each instruction as syntax. Family EncodeMatchesRow: the word of an instruction selects
the instruction's own row of the opcode map (R64). -/

namespace Sys2Proof.Laws.EncodeMatchesRow

/-- The encoded word selects the instruction's row of R64. -/
def Statement (i : Instr) : Prop := i.row.selects (encode i) = true

theorem cls : Statement .cls := by unfold Statement; decide

theorem ret : Statement .ret := by unfold Statement; decide

theorem jp (nnn : Imm12) : Statement (.jp nnn) := by
  simp [Statement, OpcodeRow.selects, Instr.row, encode, mask_T]

theorem call (nnn : Imm12) : Statement (.call nnn) := by
  simp [Statement, OpcodeRow.selects, Instr.row, encode, mask_T]

theorem seI (x : Reg) (nn : Byte) : Statement (.seI x nn) := by
  simp [Statement, OpcodeRow.selects, Instr.row, encode, mask_T]

theorem sneI (x : Reg) (nn : Byte) : Statement (.sneI x nn) := by
  simp [Statement, OpcodeRow.selects, Instr.row, encode, mask_T]

theorem seR (x : Reg) (y : Reg) : Statement (.seR x y) := by
  simp [Statement, OpcodeRow.selects, Instr.row, encode, mask_TN]

theorem ldI (x : Reg) (nn : Byte) : Statement (.ldI x nn) := by
  simp [Statement, OpcodeRow.selects, Instr.row, encode, mask_T]

theorem addI (x : Reg) (nn : Byte) : Statement (.addI x nn) := by
  simp [Statement, OpcodeRow.selects, Instr.row, encode, mask_T]

theorem ldR (x : Reg) (y : Reg) : Statement (.ldR x y) := by
  simp [Statement, OpcodeRow.selects, Instr.row, encode, mask_TN]

theorem bitOr (x : Reg) (y : Reg) : Statement (.bitOr x y) := by
  simp [Statement, OpcodeRow.selects, Instr.row, encode, mask_TN]

theorem bitAnd (x : Reg) (y : Reg) : Statement (.bitAnd x y) := by
  simp [Statement, OpcodeRow.selects, Instr.row, encode, mask_TN]

theorem bitXor (x : Reg) (y : Reg) : Statement (.bitXor x y) := by
  simp [Statement, OpcodeRow.selects, Instr.row, encode, mask_TN]

theorem addR (x : Reg) (y : Reg) : Statement (.addR x y) := by
  simp [Statement, OpcodeRow.selects, Instr.row, encode, mask_TN]

theorem sub (x : Reg) (y : Reg) : Statement (.sub x y) := by
  simp [Statement, OpcodeRow.selects, Instr.row, encode, mask_TN]

theorem shr (x : Reg) : Statement (.shr x) := by
  simp [Statement, OpcodeRow.selects, Instr.row, encode, mask_TN]

theorem subn (x : Reg) (y : Reg) : Statement (.subn x y) := by
  simp [Statement, OpcodeRow.selects, Instr.row, encode, mask_TN]

theorem shl (x : Reg) : Statement (.shl x) := by
  simp [Statement, OpcodeRow.selects, Instr.row, encode, mask_TN]

theorem sneR (x : Reg) (y : Reg) : Statement (.sneR x y) := by
  simp [Statement, OpcodeRow.selects, Instr.row, encode, mask_TN]

theorem ldIdx (nnn : Imm12) : Statement (.ldIdx nnn) := by
  simp [Statement, OpcodeRow.selects, Instr.row, encode, mask_T]

theorem jpV0 (nnn : Imm12) : Statement (.jpV0 nnn) := by
  simp [Statement, OpcodeRow.selects, Instr.row, encode, mask_T]

theorem rnd (x : Reg) (nn : Byte) : Statement (.rnd x nn) := by
  simp [Statement, OpcodeRow.selects, Instr.row, encode, mask_T]

theorem drw (x : Reg) (y : Reg) (n : Nibble) : Statement (.drw x y n) := by
  simp [Statement, OpcodeRow.selects, Instr.row, encode, mask_T]

theorem skp (x : Reg) : Statement (.skp x) := by
  simp [Statement, OpcodeRow.selects, Instr.row, encode, mask_TNN]

theorem sknp (x : Reg) : Statement (.sknp x) := by
  simp [Statement, OpcodeRow.selects, Instr.row, encode, mask_TNN]

theorem ldVxDt (x : Reg) : Statement (.ldVxDt x) := by
  simp [Statement, OpcodeRow.selects, Instr.row, encode, mask_TNN]

theorem ldVxK (x : Reg) : Statement (.ldVxK x) := by
  simp [Statement, OpcodeRow.selects, Instr.row, encode, mask_TNN]

theorem ldDtVx (x : Reg) : Statement (.ldDtVx x) := by
  simp [Statement, OpcodeRow.selects, Instr.row, encode, mask_TNN]

theorem ldStVx (x : Reg) : Statement (.ldStVx x) := by
  simp [Statement, OpcodeRow.selects, Instr.row, encode, mask_TNN]

theorem addIdx (x : Reg) : Statement (.addIdx x) := by
  simp [Statement, OpcodeRow.selects, Instr.row, encode, mask_TNN]

theorem ldF (x : Reg) : Statement (.ldF x) := by
  simp [Statement, OpcodeRow.selects, Instr.row, encode, mask_TNN]

theorem ldB (x : Reg) : Statement (.ldB x) := by
  simp [Statement, OpcodeRow.selects, Instr.row, encode, mask_TNN]

theorem stRegs (x : Reg) : Statement (.stRegs x) := by
  simp [Statement, OpcodeRow.selects, Instr.row, encode, mask_TNN]

theorem ldRegs (x : Reg) : Statement (.ldRegs x) := by
  simp [Statement, OpcodeRow.selects, Instr.row, encode, mask_TNN]

end Sys2Proof.Laws.EncodeMatchesRow
end

