-- ==== Sys2Proof/Laws/Step.lean ====
section
/-! SUPPORT. Everything a step of the machine can be, said once; a proof about all steps cites `step_cases` and does not
unfold the step. -/

namespace Sys2Proof.Machine

/-- The fetch does not depend on the schedule. -/
@[simp] theorem fetch_schedule (s : State) (l : List Transition) : fetch { s with schedule := l } = fetch s := rfl

/-- When the CPU agent's step answers a next state, that state is an error entry or what the decoded instruction
answers. -/
theorem cpuStep_next {s t : State} (h : cpuStep s = .next t) :
    (∃ k, t = s.raise k) ∨ ∃ w i, fetch s = .ok w ∧ decode w = .ok i ∧ exec i s = .next t := by
  rcases cpuStep_cases s with ⟨_, e⟩ | ⟨w, e', _, _, e⟩ | ⟨w, i, hf, hd, e⟩
  · rw [e] at h; cases h; exact .inl ⟨_, rfl⟩
  · rw [e] at h; cases h; exact .inl ⟨_, rfl⟩
  · rw [e] at h; exact .inr ⟨w, i, hf, hd, h⟩

/-- Everything a step that answers a next state can be: the CPU agent's own step; nothing but an entry taken off the
schedule (an observation, a step that is not enabled, a waiting machine); a tick; a key event; a reset. -/
theorem step_cases {s t : State} (h : step s = .next t) :
    (∃ s₀ : State, (s.schedule = [] ∧ s₀ = s ∨ ∃ r, s.schedule = .step :: r ∧ s₀ = { s with schedule := r }) ∧
      s.mode = .running ∧ cpuStep s₀ = .next t) ∨
    (∃ r, (s.schedule = r ∨ s.schedule = .step :: r ∨ s.schedule = .observe :: r) ∧ t = { s with schedule := r }) ∨
    (∃ r, s.schedule = .tick :: r ∧ t = tick { s with schedule := r }) ∨
    (∃ k r, s.schedule = .keyDown k :: r ∧ t = keyDown { s with schedule := r } k) ∨
    (∃ k r, s.schedule = .keyUp k :: r ∧ t = keyUp { s with schedule := r } k) ∨
    (∃ image r, s.schedule = .reset image :: r ∧ wellFormedImage image = true ∧
      t = State.booted { s with schedule := r } image) := by
  cases hs : s.schedule with
  | nil =>
    rw [step_unscheduled hs] at h
    unfold unscheduled at h
    cases hm : s.mode <;> rw [hm] at h
    · exact .inl ⟨s, .inl ⟨rfl, rfl⟩, rfl, h⟩
    · cases h; exact .inr (.inl ⟨[], .inl rfl, by cases s; simp_all⟩)
    · cases h
  | cons tr r =>
    rw [step_scheduled hs] at h
    cases tr <;> simp only [perform] at h
    · split at h
      · exact .inl ⟨_, .inr ⟨r, rfl, rfl⟩, by assumption, h⟩
      · cases h; exact .inr (.inl ⟨r, .inr (.inl rfl), rfl⟩)
    · cases h; exact .inr (.inr (.inl ⟨r, rfl, rfl⟩))
    · cases h; exact .inr (.inr (.inr (.inl ⟨_, r, rfl, rfl⟩)))
    · cases h; exact .inr (.inr (.inr (.inr (.inl ⟨_, r, rfl, rfl⟩))))
    · unfold resetWith at h
      split at h
      · cases h; exact .inr (.inr (.inr (.inr (.inr ⟨_, r, rfl, by assumption, rfl⟩))))
      · cases h
    · cases h; exact .inr (.inl ⟨r, .inr (.inr rfl), rfl⟩)

end Sys2Proof.Machine
end

