-- ==== Sys2Proof/Tests/Slice0.lean ====
section
/-! SUPPORT. Tests on small states. Expected values are those of spec/95_test_vectors.md (its ids in the comments) or worked
out by hand from the rule cited. Each semantic test is one step or one transition. -/

namespace Sys2Proof.Tests

open Sys2Proof.Machine

set_option Elab.async false

/-! ### Well-formedness: each check refuses an ill-formed term -/

theorem test_field_refuses_too_wide : fitsField 4 16 = false ∧ fitsField 4 15 = true := by decide
theorem test_register_refuses_16 : wellFormedReg 16 = false ∧ wellFormedReg 15 = true := by decide
theorem test_row_count_refuses_16 : wellFormedN 16 = false ∧ wellFormedN 15 = true := by decide
theorem test_byte_refuses_256 : wellFormedNN 256 = false ∧ wellFormedNN 255 = true := by decide
theorem test_address_refuses_4096 : wellFormedNNN 4096 = false ∧ wellFormedNNN 4095 = true := by decide
theorem test_font_refuses_79_bytes :
    wellFormedFont (font.toList.drop 1) = false ∧ wellFormedFont font.toList = true := by decide +kernel
theorem test_image_refuses_3585_bytes :
    wellFormedImage (List.replicate 3585 0) = false ∧ wellFormedImage (List.replicate 3584 0) = true := by decide +kernel

/-! ### Decode: for every constructor a word written out from the opcode map of 30 R64 -/

theorem test_decode_CLS : decode 0x00E0 = .ok .cls := by decide +kernel
theorem test_decode_RET : decode 0x00EE = .ok .ret := by decide +kernel
theorem test_decode_JP : decode 0x1ABC = .ok (.jp 0xABC) := by decide +kernel
theorem test_decode_CALL : decode 0x2305 = .ok (.call 0x305) := by decide +kernel
theorem test_decode_SE_nn : decode 0x332A = .ok (.seI 3 0x2A) := by decide +kernel
theorem test_decode_SNE_nn : decode 0x4C81 = .ok (.sneI 12 0x81) := by decide +kernel
theorem test_decode_SE_Vy : decode 0x5120 = .ok (.seR 1 2) := by decide +kernel
theorem test_decode_LD_nn : decode 0x6A2F = .ok (.ldI 10 0x2F) := by decide +kernel
theorem test_decode_ADD_nn : decode 0x71FE = .ok (.addI 1 0xFE) := by decide +kernel
theorem test_decode_LD_Vy : decode 0x8EF0 = .ok (.ldR 14 15) := by decide +kernel
theorem test_decode_OR : decode 0x8121 = .ok (.bitOr 1 2) := by decide +kernel
theorem test_decode_AND : decode 0x8122 = .ok (.bitAnd 1 2) := by decide +kernel
theorem test_decode_XOR : decode 0x8123 = .ok (.bitXor 1 2) := by decide +kernel
theorem test_decode_ADD_Vy : decode 0x8124 = .ok (.addR 1 2) := by decide +kernel
theorem test_decode_SUB : decode 0x8125 = .ok (.sub 1 2) := by decide +kernel
theorem test_decode_SHR_any_Y : decode 0x8106 = .ok (.shr 1) ∧ decode 0x81F6 = .ok (.shr 1) := by decide +kernel
theorem test_decode_SUBN : decode 0x8127 = .ok (.subn 1 2) := by decide +kernel
theorem test_decode_SHL_any_Y : decode 0x810E = .ok (.shl 1) ∧ decode 0x81FE = .ok (.shl 1) := by decide +kernel
theorem test_decode_SNE_Vy : decode 0x9120 = .ok (.sneR 1 2) := by decide +kernel
theorem test_decode_LD_I : decode 0xA2F0 = .ok (.ldIdx 0x2F0) := by decide +kernel
theorem test_decode_JP_V0 : decode 0xB301 = .ok (.jpV0 0x301) := by decide +kernel
theorem test_decode_RND : decode 0xC30F = .ok (.rnd 3 0x0F) := by decide +kernel
theorem test_decode_DRW : decode 0xD125 = .ok (.drw 1 2 5) := by decide +kernel
theorem test_decode_SKP : decode 0xE59E = .ok (.skp 5) := by decide +kernel
theorem test_decode_SKNP : decode 0xE5A1 = .ok (.sknp 5) := by decide +kernel
theorem test_decode_LD_Vx_DT : decode 0xF207 = .ok (.ldVxDt 2) := by decide +kernel
theorem test_decode_LD_Vx_K : decode 0xF30A = .ok (.ldVxK 3) := by decide +kernel
theorem test_decode_LD_DT : decode 0xF015 = .ok (.ldDtVx 0) := by decide +kernel
theorem test_decode_LD_ST : decode 0xF118 = .ok (.ldStVx 1) := by decide +kernel
theorem test_decode_ADD_I : decode 0xF21E = .ok (.addIdx 2) := by decide +kernel
theorem test_decode_LD_F : decode 0xF429 = .ok (.ldF 4) := by decide +kernel
theorem test_decode_LD_B : decode 0xF133 = .ok (.ldB 1) := by decide +kernel
theorem test_decode_LD_mem : decode 0xF255 = .ok (.stRegs 2) := by decide +kernel
theorem test_decode_LD_from_mem : decode 0xF265 = .ok (.ldRegs 2) := by decide +kernel

/-- Words of 30 R70 and 95 E4, T16, T19, A35, M22, K8 that are no instruction. -/
theorem test_decode_rejects_unknown_patterns :
    (([0x0000, 0x00E1, 0x00EF, 0x0123, 0x0FFF, 0x5121, 0x9121, 0x8008, 0x8128, 0x812D, 0x812F] ++
      [0xE000, 0xE59F, 0xE5A0, 0xE500, 0xF100, 0xF1FF, 0xF166, 0xFFFF] : List Word).all fun w =>
      decide (decode w = .error (.unknownPattern w))) = true := by decide +kernel

theorem test_decode_rejects_one_byte : decodeBytes [0x12] = .error .truncated := by decide +kernel

/-- The high half comes first (95 E1), and the bytes after the instruction are given back. -/
theorem test_decode_bytes_big_endian : decodeBytes [0x12, 0x34, 0x56] = .ok (.jp 0x234, [0x56]) := by decide +kernel

theorem test_encode_shift_has_Y_zero : encode (.shr 1) = 0x8106 ∧ encode (.shl 15) = 0x8F0E := by decide

theorem test_table_word_is_decoded : decodeTableWord 16 0xD125 = some (.drw 1 2 5) := by decide
theorem test_table_word_unknown : decodeTableWord 16 0x5121 = none := by decide

/-! ### Small states and one step -/

/-- A state with some registers set. -/
def withV (s : State) : List (Reg × Byte) → State
  | [] => s
  | (r, v) :: rest => withV (s.setV r v) rest

/-- The reset state with some registers set. -/
def regs (l : List (Reg × Byte)) : State := withV State.reset l

/-- A state with bytes at an address. -/
def withBytes (s : State) (a : Nat) (bs : List Byte) : State := s.setMem (s.mem.writeBytes s.params.font a bs)

/-- The `n` bytes of a state's memory from `a` up. -/
def bytes (s : State) (a n : Nat) : List Byte := s.mem.readBytes s.params.font a n

/-- The reset state of a machine with other arguments: one stack entry, BNNN not reduced, a font of 0xAA bytes. -/
def other : State := State.resetFor { stackDepth := 1, bnnnWrap := false, font := Vector.replicate 80 0xAA }

/-- The next state of an outcome, if it is one. -/
def nextOf : Result → Option State
  | .next t => some t
  | .fault _ => none
  | .refused _ => none

/-- The state after the one step that runs the word `w`. -/
def ran (w : Word) (s : State) : Option State := nextOf (step (s.placeWord w))

/-- Two registers after the step that runs `w`. -/
def ranV (w : Word) (s : State) (a b : Reg) : Option (Byte × Byte) := (ran w s).map fun t => (t.getV a, t.getV b)

/-- The `pc` after the step that runs `w`. -/
def ranPc (w : Word) (s : State) : Option Word := (ran w s).map State.pc

/-- The error record and the mode after the step that runs `w`. -/
def ranErr (w : Word) (s : State) : Option (Option ErrorRecord × Mode) := (ran w s).map fun t => (t.err, t.mode)

/-- The cells that are 1, as (x, y). -/
def lit (fb : Framebuffer) : List (Nat × Nat) :=
  fb.toList.zipIdx.flatMap fun (row, y) => (row.toList.zipIdx.filter fun c => c.1).map fun c => (c.2, y)

/-- A framebuffer with one cell 1. -/
def oneLit (y x : Nat) : Framebuffer := (drawPixel y x true { fb := clearedFb, c := false }).fb

/-! ### Control transfer (95 part 2.1) -/

-- T1
theorem test_jp : ranPc 0x1ABC State.reset = some 0x0ABC := by decide +kernel
-- T5
theorem test_call_pushes_own_address :
    (ran 0x2300 State.reset).map (fun t => (t.stack, t.pc)) = some ([0x0200], 0x0300) := by decide +kernel
-- T6, 17th step; with STACK_DEPTH = 1 (R16), 2nd step
theorem test_call_overflow :
    (ran 0x2200 { State.reset with stack := List.replicate 16 0x0200 }).map (fun t => (t.err, t.stack.length, t.pc)) =
      some (some ⟨.stackOverflow, 0x0200⟩, 16, 0x0200) ∧
    ranErr 0x2200 { other with stack := [0x0200] } = some (some ⟨.stackOverflow, 0x0200⟩, .halted) := by decide +kernel
-- T8
theorem test_ret :
    (ran 0x00EE { State.reset with stack := [0x0204], pc := 0x0300 }).map (fun t => (t.stack, t.pc)) =
      some ([], 0x0206) := by decide +kernel
-- T7
theorem test_ret_underflow : ranErr 0x00EE State.reset = some (some ⟨.stackUnderflow, 0x0200⟩, .halted) := by
  decide +kernel
-- T9, T10
theorem test_se_nn : ranPc 0x332A (regs [(3, 0x2A)]) = some 0x0204 ∧ ranPc 0x332A (regs [(3, 0x2B)]) = some 0x0202 := by
  decide +kernel
-- T11, T12
theorem test_sne_nn : ranPc 0x432A (regs [(3, 0x2A)]) = some 0x0202 ∧ ranPc 0x432A State.reset = some 0x0204 := by
  decide +kernel
-- T13, T14
theorem test_se_vy :
    ranPc 0x5120 (regs [(1, 7), (2, 7)]) = some 0x0204 ∧ ranPc 0x5120 (regs [(1, 7), (2, 8)]) = some 0x0202 := by
  decide +kernel
-- T17, T18
theorem test_sne_vy :
    ranPc 0x9120 (regs [(1, 7), (2, 8)]) = some 0x0204 ∧ ranPc 0x9120 (regs [(1, 7), (2, 7)]) = some 0x0202 := by
  decide +kernel
-- T20
theorem test_jp_v0 : ranPc 0xB300 (regs [(0, 0x04)]) = some 0x0304 := by decide +kernel
-- T21; with BNNN_WRAP = false (R88) the sum is kept
theorem test_jp_v0_wraps :
    ranPc 0xBFFF (regs [(0, 0xFF)]) = some 0x00FE ∧ ranPc 0xBFFF (other.setV 0 0xFF) = some 0x10FE := by decide +kernel

/-! ### Load, arithmetic, bitwise, shift, random (95 part 2.2) -/

-- A1
theorem test_ld_nn : ranV 0x6A2F State.reset 10 15 = some (0x2F, 0x00) := by decide +kernel
-- A3
theorem test_add_nn_wraps_no_flag : ranV 0x7102 (regs [(1, 0xFF), (15, 0x5A)]) 1 15 = some (0x01, 0x5A) := by
  decide +kernel
-- A6
theorem test_ld_vy : ranV 0x8120 (regs [(2, 0x7C), (15, 0x5A)]) 1 15 = some (0x7C, 0x5A) := by decide +kernel
-- A7
theorem test_or_no_flag_reset : ranV 0x8121 (regs [(1, 0xF0), (2, 0x0F), (15, 1)]) 1 15 = some (0xFF, 0x01) := by
  decide +kernel
-- A8
theorem test_and_no_flag_reset : ranV 0x8122 (regs [(1, 0xF3), (2, 0x3F), (15, 1)]) 1 15 = some (0x33, 0x01) := by
  decide +kernel
-- A9
theorem test_xor_no_flag_reset : ranV 0x8123 (regs [(1, 0xFF), (2, 0x0F), (15, 1)]) 1 15 = some (0xF0, 0x01) := by
  decide +kernel
-- S3
theorem test_add_vy_carry : ranV 0x8124 (regs [(1, 0xFF), (2, 0x01)]) 1 15 = some (0x00, 0x01) := by decide +kernel
-- A15
theorem test_add_into_vf_keeps_the_carry : ranV 0x8F14 (regs [(15, 0x01), (1, 0x01)]) 15 1 = some (0x00, 0x01) := by
  decide +kernel
-- S6
theorem test_sub_borrow : ranV 0x8125 (regs [(1, 0x03), (2, 0x05), (15, 1)]) 1 15 = some (0xFE, 0x00) := by
  decide +kernel
-- A16
theorem test_sub_equal_is_no_borrow : ranV 0x8125 (regs [(1, 5), (2, 5)]) 1 15 = some (0x00, 0x01) := by decide +kernel
-- A23
theorem test_shr : ranV 0x8106 (regs [(1, 0x05)]) 1 15 = some (0x02, 0x01) := by decide +kernel
-- A25
theorem test_shr_ignores_y : ranV 0x8126 (regs [(1, 0x05), (2, 0xFF)]) 1 2 = some (0x02, 0xFF) := by decide +kernel
-- A20
theorem test_subn_borrow : ranV 0x8127 (regs [(1, 0x05), (2, 0x03)]) 1 15 = some (0xFE, 0x00) := by decide +kernel
-- A22
theorem test_subn_into_vf : ranV 0x8F17 (regs [(15, 0x02), (1, 0x05)]) 15 1 = some (0x01, 0x05) := by decide +kernel
-- A28
theorem test_shl : ranV 0x810E (regs [(1, 0x81)]) 1 15 = some (0x02, 0x01) := by decide +kernel
-- A30
theorem test_shl_ignores_y : ranV 0x812E (regs [(1, 0xFF), (2, 0x00)]) 1 2 = some (0xFE, 0x00) := by decide +kernel
-- A32
theorem test_rnd_masks_the_sample :
    (ran 0xC30F { State.reset with samples := [0xA7, 0x11] }).map (fun t => (t.getV 3, t.samples)) =
      some (0x07, [0x11]) := by decide +kernel
-- A33: whatever the free sample is
theorem test_rnd_free_sample : ∃ r, exec (.rnd 3 0x00) State.reset = .next r ∧ r.getV 3 = 0x00 ∧ r.drawn = 1 :=
  ⟨_, rfl, by simp, rfl⟩

/-! ### Index and memory (95 part 2.3) -/

-- M2
theorem test_ld_i : (ran 0xAFFF State.reset).map (fun t => (t.I, t.pc)) = some (0x0FFF, 0x0202) := by decide +kernel
-- M4
theorem test_add_i_wraps_no_flag :
    (ran 0xF11E (regs [(1, 1)] |>.setI 0x0FFF)).map (fun t => (t.I, t.getV 15)) = some (0x0000, 0x00) := by decide +kernel
-- M5
theorem test_add_i_wraps : (ran 0xF11E (regs [(1, 0xFF)] |>.setI 0x0F80)).map State.I = some 0x007F := by decide +kernel
-- M7
theorem test_ld_f : (ran 0xF429 (regs [(4, 0x0F)])).map State.I = some 0x009B := by decide +kernel
-- M9
theorem test_ld_f_whole_byte : (ran 0xF029 (regs [(0, 0xFF)])).map State.I = some 0x054B := by decide +kernel
-- M10
theorem test_ld_b :
    (ran 0xF133 (regs [(1, 0x7B)] |>.setI 0x0FFD)).map (fun t => bytes t 0xFFD 3) = some [1, 2, 3] := by
  decide +kernel
-- M11
theorem test_ld_b_out_of_bounds :
    ranErr 0xF133 (regs [(1, 0x7B)] |>.setI 0x0FFE) = some (some ⟨.outOfBounds, 0x0200⟩, .halted) := by decide +kernel
-- M15
theorem test_ld_mem :
    (ran 0xF255 (regs [(0, 1), (1, 2), (2, 3), (3, 4)] |>.setI 0x0300)).map
      (fun t => (bytes t 0x300 4, t.I)) = some ([1, 2, 3, 0], 0x0300) := by decide +kernel
-- M18
theorem test_ld_mem_out_of_bounds_stores_nothing :
    (ran 0xFF55 (regs [(0, 1), (15, 2)] |>.setI 0x0FF1)).map (fun t => (t.err, bytes t 0xFF1 15)) =
      some (some ⟨.outOfBounds, 0x0200⟩, List.replicate 15 0) := by decide +kernel
-- M19
theorem test_ld_from_mem :
    (ran 0xF265 ((withBytes (regs [(3, 0x77)]) 0x300 [0x0A, 0x0B, 0x0C]).setI 0x0300)).map
      (fun t => (t.getV 0, t.getV 1, t.getV 2, t.getV 3, t.I)) = some (0x0A, 0x0B, 0x0C, 0x77, 0x0300) := by
  decide +kernel
-- M21
theorem test_ld_from_mem_out_of_bounds :
    ranErr 0xF165 (State.reset.setI 0x0FFF) = some (some ⟨.outOfBounds, 0x0200⟩, .halted) := by decide +kernel

/-! ### Display (95 part 2.4) -/

-- G1
theorem test_cls :
    (ran 0x00E0 (regs [(15, 1)] |>.setFb (oneLit 5 7))).map (fun t => (lit t.fb, t.getV 15)) = some ([], 0x01) := by
  decide +kernel
-- G6
theorem test_drw_clips :
    (ran 0xD012 ((withBytes (regs [(0, 62), (1, 31)]) 0x300 [0xC0, 0xFF]).setI 0x0300)).map
      (fun t => (lit t.fb, t.getV 15)) = some ([(62, 31), (63, 31)], 0x00) := by decide +kernel
-- G7
theorem test_drw_collides :
    (ran 0xD011 (((withBytes State.reset 0x300 [0x80]).setI 0x0300).setFb (oneLit 0 0))).map
      (fun t => (lit t.fb, t.getV 15)) = some ([], 0x01) := by decide +kernel

/-! ### Keypad and timers (95 part 2.5) -/

-- K7, K2
theorem test_skp :
    ranPc 0xE59E (regs [(5, 0x0F)] |>.setKey 15 true) = some 0x0204 ∧ ranPc 0xE59E (regs [(5, 0x0A)]) = some 0x0202 := by
  decide +kernel
-- K5
theorem test_skp_invalid_key : ranErr 0xE59E (regs [(5, 0x10)]) = some (some ⟨.invalidKey, 0x0200⟩, .halted) := by
  decide +kernel
-- K3, K4
theorem test_sknp :
    ranPc 0xE5A1 (regs [(5, 0x0A)]) = some 0x0204 ∧ ranPc 0xE5A1 (regs [(5, 0x0A)] |>.setKey 10 true) = some 0x0202 := by
  decide +kernel
-- K6
theorem test_sknp_invalid_key :
    ranErr 0xE5A1 (regs [(5, 0xFA)] |>.setKey 10 true) = some (some ⟨.invalidKey, 0x0200⟩, .halted) := by decide +kernel
-- K9
theorem test_ld_k_waits :
    (ran 0xF30A (regs [(3, 0x55)] |>.setKey 3 true)).map (fun t => (t.mode, t.pc, t.kx, t.getV 3)) =
      some (.waitingForKey, 0x0200, 3, 0x55) := by decide +kernel
-- K14
theorem test_ld_vx_dt : ranV 0xF207 (State.reset.setDT 0x3C) 2 15 = some (0x3C, 0x00) := by decide +kernel
-- K15
theorem test_ld_dt : (ran 0xF015 (regs [(0, 0x0A)])).map (fun t => (t.DT, t.ST)) = some (0x0A, 0x00) := by decide +kernel
-- K18
theorem test_ld_st : (ran 0xF118 (regs [(1, 0x05)])).map (fun t => (t.DT, t.ST)) = some (0x00, 0x05) := by decide +kernel

/-! ### The agents (95 parts 2.5, 2.6, 3) -/

/-- One scheduled transition. -/
def scheduled (t : Transition) (s : State) : Option State := nextOf (step { s with schedule := [t] })

-- K17
theorem test_tick_stops_at_zero :
    (scheduled .tick { State.reset with DT := 0x01, ST := 0x00 }).map (fun t => (t.DT, t.ST)) = some (0x00, 0x00) := by
  decide +kernel
-- K19
theorem test_tick_in_halted :
    (scheduled .tick ((State.reset.setDT 2).raise .unknownOpcode)).map (fun t => (t.DT, t.mode)) =
      some (0x01, .halted) := by decide +kernel
-- K11
theorem test_key_up_does_not_resume :
    (scheduled (.keyUp 3) ((State.reset.setKey 3 true).waitForKey 3)).map (fun t => (t.key 3, t.mode, t.pc)) =
      some (false, .waitingForKey, 0x0200) := by decide +kernel
-- K12
theorem test_key_down_resumes :
    (scheduled (.keyDown 7) (State.reset.waitForKey 3)).map (fun t => (t.getV 3, t.pc, t.mode, t.key 7)) =
      some (0x07, 0x0202, .running, true) := by decide +kernel
-- K13
theorem test_key_down_while_running :
    (scheduled (.keyDown 7) State.reset).map (fun t => (t.key 7, t.pc, t.mode, t.getV 7)) =
      some (true, 0x0200, .running, 0x00) := by decide +kernel
-- E5
theorem test_step_not_enabled_when_halted :
    (scheduled .step (State.reset.raise .invalidKey)).map (fun t => (t.err, t.pc)) =
      some (some ⟨.invalidKey, 0x0200⟩, 0x0200) := by decide +kernel
-- E6
theorem test_reset_leaves_halted :
    (scheduled (.reset [0x12, 0x00]) ((regs [(1, 9)]).raise .unknownOpcode)).map
      (fun t => (t.err, t.mode, t.getV 1, bytes t 0x200 3)) =
      some (none, .running, 0x00, [0x12, 0x00, 0x00]) := by decide +kernel
-- 60 R191
theorem test_observe_has_no_effect : scheduled .observe (State.reset.setDT 5) = some (State.reset.setDT 5) := by
  decide +kernel
-- E3
theorem test_fetch_past_the_end :
    (nextOf (step (State.reset.setPc 0x0FFF))).map State.err = some (some ⟨.outOfBounds, 0x0FFF⟩) := by decide +kernel
-- P6(d)
theorem test_empty_image_is_unknown_opcode :
    (nextOf (step State.reset)).map (fun t => (t.err, t.mode, t.pc)) =
      some (some ⟨.unknownOpcode, 0x0200⟩, .halted, 0x0200) := by decide +kernel
-- 20 R55
theorem test_font_glyphs :
    bytes State.reset 0x04F 6 = [0x00, 0xF0, 0x90, 0x90, 0x90, 0xF0] ∧
      bytes State.reset 0x09B 6 = [0xF0, 0x80, 0xF0, 0x80, 0x80, 0x00] := by decide +kernel
-- 20 R55, 70 R202: another FONT, kept by a reset
theorem test_font_is_an_argument :
    (scheduled (.reset [0x12]) other).map (fun t => (bytes t 0x09F 2, bytes t 0x200 1)) = some ([0xAA, 0x00], [0x12]) := by
  decide +kernel
-- 60 R170 (D31)
theorem test_error_codes :
    [ErrorKind.outOfBounds, .unknownOpcode, .invalidKey, .stackUnderflow, .stackOverflow].map ErrorKind.code =
      [1, 2, 3, 4, 5] := by decide

/-- The host's question: the very next step runs the placed word. -/
theorem test_with_fetch_word_runs_it :
    (nextOf (step (State.reset.withFetchWord 16 0x6A2F))).map (fun t => (t.getV 10, t.pc)) = some (0x2F, 0x0202) := by
  decide +kernel

/-! ### Witnesses: for every obligation that has hypotheses, a concrete state and operands that meet them, one for each
clause, at a boundary of its range. The name says the obligation. -/

/-- `I` at the highest address where a register dump of all 16 fits, and one above it. -/
def highI : State := (regs [(0, 1), (1, 2), (14, 3), (15, 4)]).setI 0x0FF0

theorem witness_DecodeInvertsEncode :
    (Instr.drw 15 15 15).wellFormed = true ∧ (Instr.jp 0xFFF).wellFormed = true ∧ (Instr.ldI 15 0xFF).wellFormed = true := by
  decide

theorem witness_WordSelectsOneRowOrIsUnknown :
    (∃ i, decode 0x8FF7 = .ok i) ∧ decode 0x8FF8 = .error (.unknownPattern 0x8FF8) := ⟨⟨_, rfl⟩, rfl⟩

theorem witness_OnlyShiftsIgnoreAField :
    decode 0x8FF6 = .ok (.shr 15) ∧ decode 0x8FFE = .ok (.shl 15) ∧ decode 0x8FF7 = .ok (.subn 15 15) := by
  decide +kernel

theorem witness_CanonicalMemoriesThatReadAlikeAreEqual :
    Memory.wf font [(0xFFF, 1)] = true ∧ Memory.wf font (Memory.write font [] 0xFFF 1) = true ∧
      ∀ a, Memory.read font [(0xFFF, 1)] a = Memory.read font (Memory.write font [] 0xFFF 1) a := ⟨rfl, rfl, fun _ => rfl⟩

theorem witness_MemReadReturnsItsRangeOrFails : 0xFFF + 2 > 4096 ∧ 0xFFF + 1 ≤ 4096 := by decide

theorem witness_MemWriteStoresItsRangeOrFails :
    Memory.wf font [] = true ∧ 0xFFF + ([1, 2] : List Byte).length > 4096 ∧ 0xFFF + ([1] : List Byte).length ≤ 4096 := by
  decide

theorem witness_FetchIsBigEndian :
    0xFFF ≤ (State.reset.setPc 0x0FFF).pc.toNat ∧ (State.reset.setPc 0x0FFE).pc.toNat ≤ 0xFFE := by decide

theorem witness_RandomIsAnySampleMasked :
    { State.reset with samples := [0xA7] }.samples = 0xA7 :: [] ∧ State.reset.samples = [] ∧ (0x0F : Byte) &&& 0x0F = 0x0F := by decide

theorem witness_CallPushesItsOwnAddress :
    { State.reset with stack := List.replicate 15 0x0200 }.stack.length < State.reset.params.stackDepth ∧
      State.reset.params.stackDepth ≤ { State.reset with stack := List.replicate 16 0x0200 }.stack.length := by decide

theorem witness_ReturnPopsAndAdvances :
    { State.reset with stack := [0x0204] }.stack = 0x0204 :: [] ∧ State.reset.stack = [] := by decide

theorem witness_CallThenReturnComesBack :
    { State.reset with stack := List.replicate 15 0x0200 }.stack.length < State.reset.params.stackDepth := by decide

theorem witness_StoreBcdWritesThreeDigits :
    (State.reset.setI 0x0FFD).memWf = true ∧ (State.reset.setI 0x0FFD).I.toNat + 3 ≤ 4096 ∧
      (State.reset.setI 0x0FFE).memWf = true ∧ (State.reset.setI 0x0FFE).I.toNat + 3 > 4096 := by decide

theorem witness_StoreRegistersWritesV0ToVx :
    highI.memWf = true ∧ highI.I.toNat + (15 : Reg).val + 1 ≤ 4096 ∧
      (highI.setI 0x0FF1).I.toNat + (15 : Reg).val + 1 > 4096 := by decide

theorem witness_LoadRegistersReadsV0ToVx :
    highI.I.toNat + (15 : Reg).val + 1 ≤ 4096 ∧ (highI.setI 0x0FF1).I.toNat + (15 : Reg).val + 1 > 4096 := by decide

theorem witness_DumpThenLoadRestoresRegisters :
    highI.memWf = true ∧ highI.I.toNat + (15 : Reg).val + 1 ≤ 4096 := by decide

theorem witness_StoredBytesAreFetchedAsStored :
    highI.memWf = true ∧ highI.I.toNat + (15 : Reg).val + 1 ≤ 4096 ∧
      (0x0FFE : Word).toNat = highI.I.toNat + (14 : Reg).val ∧ (15 : Reg).val = (14 : Reg).val + 1 ∧ (15 : Reg) ≤ 15 ∧
      (highI.setI 0x0FFD).memWf = true ∧ (highI.setI 0x0FFD).I.toNat + 3 ≤ 4096 ∧
      (0x0FFD : Word).toNat = (highI.setI 0x0FFD).I.toNat ∧ (0x0FFE : Word).toNat = (highI.setI 0x0FFD).I.toNat + 1 := by
  decide +kernel

theorem witness_DrawXorsClippedSprite :
    (highI.setI 0x0FF1).I.toNat + (15 : Nibble).toNat ≤ 4096 ∧ (highI.setI 0x0FF2).I.toNat + (15 : Nibble).toNat > 4096 := by
  decide

theorem witness_DrawTwiceRestoresFramebuffer :
    (0 : Reg) ≠ VF ∧ (14 : Reg) ≠ VF ∧ (highI.setI 0x0FF1).I.toNat + (15 : Nibble).toNat ≤ 4096 := by decide

theorem witness_SkipsOnKeyLevelOrInvalidKey :
    ((regs [(5, 0x0F)]).getV 5).toNat = (15 : Key).val ∧ 0x0F < ((regs [(5, 0x10)]).getV 5).toNat := by decide +kernel

theorem witness_ErrorsArePreciseAndOfTheirOwnKind :
    (∃ t, exec .ret State.reset = .next t ∧ t.mode = .halted) ∧
      (∃ t, exec (.ldVxK 3) State.reset = .next t ∧ t.mode = .waitingForKey) ∧
      (∃ t, exec .cls State.reset = .next t ∧ t.mode = .running) := ⟨⟨_, rfl, rfl⟩, ⟨_, rfl, rfl⟩, ⟨_, rfl, rfl⟩⟩

/-- CLS names no destination and writes neither VF, `I`, the stack nor memory; JP writes no framebuffer either. -/
theorem witness_EachPartHasItsOwnWriters :
    (∃ t, exec .cls State.reset = .next t) ∧ Instr.cls.namesDestination VF = false ∧ Instr.cls.writesFlag = false ∧
      Instr.cls.writesIndex = false ∧ Instr.cls.writesStack = false ∧ Instr.cls.storesToMemory = false ∧
      (∃ t, exec (.jp 0xFFF) State.reset = .next t) ∧ (Instr.jp 0xFFF).writesFramebuffer = false ∧
      (∀ x, Instr.cls ≠ .ldDtVx x) ∧ (∀ x, Instr.cls ≠ .ldStVx x) ∧ (∀ x, Instr.cls ≠ .ldVxK x) ∧
      (∀ x nn, Instr.cls ≠ .rnd x nn) := by
  refine ⟨⟨_, rfl⟩, rfl, rfl, rfl, rfl, rfl, ⟨_, rfl⟩, rfl, ?_, ?_, ?_, ?_⟩ <;> intros <;> exact Instr.noConfusion

theorem witness_OtherInstructionsAreBlindToMemory :
    (Instr.call 0x300).touchesMemory = false ∧ ∃ t, exec (.call 0x300) State.reset = .next t := ⟨rfl, _, rfl⟩

theorem witness_SoundTimerInfluencesNothing :
    (∃ t, exec (.ldStVx 1) State.reset = .next t) ∧ ∃ t, exec (.ldVxDt 1) State.reset = .next t := ⟨⟨_, rfl⟩, _, rfl⟩

theorem witness_InstructionsCommuteWithTicks :
    Instr.cls.usesTimer = false ∧ ∃ t, exec .cls (State.reset.setDT 1) = .next t := ⟨rfl, _, rfl⟩

/-- The last address where a fetch is possible, holding JP 0xFFE. -/
def lastFetch : State := (withBytes State.reset 0xFFE [0x1F, 0xFE]).setPc 0x0FFE

theorem witness_StepRunsTheDecodedInstruction :
    lastFetch.mode = .running ∧ lastFetch.pc.toNat ≤ 0xFFE ∧ (Instr.jp 0xFFE).wellFormed = true ∧
      decodeBytes [lastFetch.byte lastFetch.pc.toNat, lastFetch.byte (lastFetch.pc.toNat + 1)] =
        .ok (.jp 0xFFE, []) ∧
      lastFetch.schedule = [] ∧ { lastFetch with schedule := [.step, .tick] }.schedule = .step :: [.tick] := by
  decide +kernel

theorem witness_FetchAndDecodeErrorsComeFirst :
    (State.reset.setPc 0x0FFF).mode = .running ∧ 0xFFF ≤ (State.reset.setPc 0x0FFF).pc.toNat ∧
      (State.reset.setPc 0x0FFF).schedule = [] ∧
      { State.reset.setPc 0x0FFF with schedule := [.step, .tick] }.schedule = .step :: [.tick] ∧
      (State.reset.setPc 0x0FFE).mode = .running ∧ (State.reset.setPc 0x0FFE).pc.toNat ≤ 0xFFE ∧
      (0x0000 : Word) = wordOfBytes ((State.reset.setPc 0x0FFE).byte 0xFFE) ((State.reset.setPc 0x0FFE).byte 0xFFF) ∧
      decode 0x0000 = .error (.unknownPattern 0x0000) ∧ (State.reset.setPc 0x0FFE).schedule = [] ∧
      { State.reset.setPc 0x0FFE with schedule := [.step, .tick] }.schedule = .step :: [.tick] := by decide +kernel

/-- A halted machine, and one that waits with key 3 held down. -/
def halted : State := State.reset.raise .invalidKey
def waiting : State := (State.reset.setKey 3 true).waitForKey 3

theorem witness_HaltedMachineReportsItsError : halted.mode = .halted ∧ halted.schedule = [] := by decide

theorem witness_HaltedIsLeftOnlyByReset :
    { halted with schedule := [.tick] }.mode = .halted ∧ (∃ t, step { halted with schedule := [.tick] } = .next t) ∧
      (∃ t, step { halted with schedule := [.reset []] } = .next t ∧ t.mode = .running) :=
  ⟨rfl, ⟨_, rfl⟩, ⟨_, rfl, rfl⟩⟩

theorem witness_WaitIsLeftOnlyByKeyDownOrReset :
    waiting.mode = .waitingForKey ∧ (∃ t, step waiting = .next t ∧ t.mode = .waitingForKey) ∧
      (∃ t, step { waiting with schedule := [.keyDown 15] } = .next t ∧ t.mode = .running) ∧
      (∃ t, step { waiting with schedule := [.keyDown 3] } = .next t ∧ t.mode = .waitingForKey) :=
  ⟨rfl, ⟨_, rfl, rfl⟩, ⟨_, rfl, rfl⟩, ⟨_, rfl, rfl⟩⟩

theorem witness_TickDecrementsNonzeroTimers : { halted with schedule := [.tick] }.schedule = .tick :: [] := by decide

theorem witness_TimersNeverRiseBetweenWrites :
    ∃ t, step ((State.reset.setDT 9).placeWord 0xF015) = .next t := ⟨_, rfl⟩

theorem witness_MemoryChangesOnlyByStoresOrReset :
    (ran 0xF055 (regs [(0, 7)] |>.setI 0x0FFF)).map (fun t => t.byte 0xFFF) = some 7 ∧
      (regs [(0, 7)]).byte 0xFFF ≠ 7 := by decide +kernel

theorem witness_KeyDownRaisesLevelAndResumes :
    { waiting with schedule := [.keyDown 15] }.schedule = .keyDown 15 :: [] ∧ waiting.key 15 = false ∧
      waiting.mode = .waitingForKey ∧ halted.key 0 = false ∧ halted.mode ≠ .waitingForKey := by decide

theorem witness_KeyUpLowersLevelOnly :
    { waiting with schedule := [.keyUp 3] }.schedule = .keyUp 3 :: [] ∧ waiting.key 3 = true := by decide

theorem witness_ResetTransitionBootsTheImage :
    { halted with schedule := [.reset (List.replicate 3584 0)] }.schedule = .reset (List.replicate 3584 0) :: [] ∧
      (List.replicate 3584 (0 : Byte)).length ≤ 3584 ∧ 3584 < (List.replicate 3585 (0 : Byte)).length :=
  ⟨rfl, Nat.le_of_eq List.length_replicate, Nat.le_of_eq List.length_replicate.symm⟩

theorem witness_IdlingProgramStaysAsItIs : lastFetch.Idles ∧ lastFetch.schedule = [] :=
  ⟨⟨rfl, 0x1FFE, 0xFFE, by decide +kernel⟩, rfl⟩

theorem witness_ArgumentsNeverChange :
    ∃ t, step { other with schedule := [.reset [0x12]] } = .next t ∧ t.params.stackDepth = 1 := ⟨_, rfl, rfl⟩

/-- The invariant is met with `I` and `pc` at their bounds and a full stack, by a state that has a next state. -/
def atBounds : State := { State.reset with I := 0x0FFF, pc := 0x1002, stack := List.replicate 16 0x0FFE }

theorem witness_EveryStepKeepsTheInvariant : Inv atBounds ∧ ∃ t, step atBounds = .next t :=
  ⟨⟨by decide, by decide, by decide, by decide, fun a ha => by rw [List.eq_of_mem_replicate ha]; decide, by decide, by simp [atBounds, State.reset, State.resetFor], rfl⟩, _, rfl⟩

end Sys2Proof.Tests
end

section
/-! SUPPORT. The reset state and the arguments of a machine (00_scope.md R5; 10_state.md R27): the register file and the
framebuffer at reset, and that every operation, meaning and transition keeps the arguments. -/

namespace Sys2Proof.Machine

/-! ### The state after reset (R27) -/

@[simp] theorem State.getV_resetFor (p : Params) (r : Reg) : (State.resetFor p).getV r = 0 := by
  simp [State.getV, State.resetFor]

@[simp] theorem State.fb_resetFor (p : Params) : (State.resetFor p).fb = clearedFb := rfl

theorem State.byte_resetFor_font (p : Params) (i : Nat) (h : i < 80) :
    (State.resetFor p).byte (0x050 + i) = p.font[i] := by
  rw [State.byte_resetFor]
  exact Memory.unlisted_font i h

theorem State.byte_resetFor_zero (p : Params) {a : Nat} (h : a < 0x050 ∨ 0x0A0 ≤ a) :
    (State.resetFor p).byte a = 0 := by
  rw [State.byte_resetFor]
  exact Memory.unlisted_zero h

/-! ### What the composed operations can be -/

/-- Everything the end of an instruction that maps a checked value to its next state can be: that state, or the error
entry of the check. -/
theorem State.complete_map_next {α : Type} {s t : State} {r : Except ErrorKind α} {f : α → State}
    (h : s.complete (r.map f) = .next t) : (∃ a, r = .ok a ∧ t = f a) ∨ ∃ k, r = .error k ∧ t = s.raise k := by
  cases r with
  | ok a => exact .inl ⟨a, rfl, (Host.Outcome.next.inj h).symm⟩
  | error k => exact .inr ⟨k, rfl, (Host.Outcome.next.inj h).symm⟩

/-- Everything `push` can do when it succeeds (R16). -/
theorem State.push_ok {d : Nat} {s t : State} {a : Word} (h : s.push d a = .ok t) :
    s.stack.length < d ∧ t = { s with stack := a :: s.stack } := by
  by_cases hd : s.stack.length < d
  · rw [State.push_has_room hd] at h
    exact ⟨hd, (Except.ok.inj h).symm⟩
  · rw [State.push_full (by omega)] at h
    cases h

/-- Everything `pop` can do when it succeeds (R16). -/
theorem State.pop_ok {s : State} {r : Word × State} (h : s.pop = .ok r) :
    ∃ rest, s.stack = r.1 :: rest ∧ r.2 = { s with stack := rest } := by
  cases hs : s.stack with
  | nil => rw [State.pop_empty hs] at h; cases h
  | cons a rest => rw [State.pop_cons hs] at h; cases h; exact ⟨rest, rfl, rfl⟩

/-! ### The arguments under the operations that have no field lemmas yet -/

@[simp] theorem State.setResultAndFlag_params (s : State) (x : Reg) (v : Byte) (f : Bool) :
    (s.setResultAndFlag x v f).params = s.params := rfl

@[simp] theorem State.afterDraw_params (s : State) (d : Draw) : (s.afterDraw d).params = s.params := rfl

@[simp] theorem State.resume_params (s : State) (k : Key) : (s.resume k).params = s.params := rfl

@[simp] theorem tick_params (s : State) : (tick s).params = s.params := rfl

@[simp] theorem State.booted_params (s : State) (image : List Byte) : (s.booted image).params = s.params := rfl

@[simp] theorem keyDown_params (s : State) (k : Key) : (keyDown s k).params = s.params := by
  unfold keyDown
  split
  · rfl
  · split <;> simp

@[simp] theorem keyUp_params (s : State) (k : Key) : (keyUp s k).params = s.params := by
  unfold keyUp
  split <;> simp

/-- An instruction that ends after a check keeps the arguments when what it builds does. -/
theorem State.complete_map_params {α : Type} {s t : State} {r : Except ErrorKind α} {f : α → State}
    (h : s.complete (r.map f) = .next t) (hf : ∀ a, r = .ok a → (f a).params = s.params) : t.params = s.params := by
  obtain ⟨a, ha, rfl⟩ | ⟨k, -, rfl⟩ := State.complete_map_next h
  · exact hf a ha
  · exact s.raise_params k

/-! ### No meaning and no transition changes the arguments -/

/-- Instructions without a check answer one state, built by the named updates; the others build it from a checked
value. -/
theorem exec_params {i : Instr} {s t : State} (h : exec i s = .next t) : t.params = s.params := by
  cases i with
  | cls | jp | seI | sneI | seR | ldI | addI | ldR | bitOr | bitAnd | bitXor | addR | sub | shr | subn | shl | sneR
  | ldIdx | jpV0 | ldVxDt | ldVxK | ldDtVx | ldStVx | addIdx | ldF =>
    cases h; rfl
  | rnd x nn => cases h; exact s.sampleTaken_params
  | ret =>
    refine State.complete_map_params h fun r hr => ?_
    obtain ⟨_, _, hs⟩ := State.pop_ok hr
    simp [hs]
  | call =>
    refine State.complete_map_params h fun u hu => ?_
    obtain ⟨_, rfl⟩ := State.push_ok hu
    rfl
  | drw | skp | sknp | ldB | stRegs | ldRegs => exact State.complete_map_params h fun _ _ => rfl

theorem cpuStep_params {s t : State} (h : cpuStep s = .next t) : t.params = s.params := by
  obtain ⟨k, rfl⟩ | ⟨_, _, _, _, he⟩ := cpuStep_next h
  · exact s.raise_params k
  · exact exec_params he

theorem step_params {s t : State} (h : step s = .next t) : t.params = s.params := by
  obtain ⟨s₀, hs₀, -, hc⟩ | ⟨r, -, rfl⟩ | ⟨r, -, rfl⟩ | ⟨k, r, -, rfl⟩ | ⟨k, r, -, rfl⟩ | ⟨image, r, -, -, rfl⟩ :=
    step_cases h
  · have hp : s₀.params = s.params := by
      obtain ⟨-, rfl⟩ | ⟨r, -, rfl⟩ := hs₀ <;> rfl
    exact (cpuStep_params hc).trans hp
  · rfl
  · exact tick_params _
  · exact keyDown_params _ k
  · exact keyUp_params _ k
  · exact State.booted_params _ image

/-- Settles O55: `step_params` goes through everything a step can be; a reset boots from the arguments the state holds. -/
theorem argumentsNeverChange : Obligations.ArgumentsNeverChange := fun _ _ => step_params

/-- Settles O51: each field by the definition of the reset state; registers and cells are replicated zeros, and memory
lists nothing, so it reads as the font or as 0. -/
theorem resetStateHoldsTheTableOfResetValues : Obligations.ResetStateHoldsTheTableOfResetValues := by
  refine ⟨fun p => ?_, rfl, rfl, rfl, rfl⟩
  refine ⟨State.getV_resetFor p, rfl, rfl, rfl, rfl, rfl, ?_, rfl, rfl, rfl, rfl, State.byte_resetFor_font p,
    fun _ => State.byte_resetFor_zero p⟩
  intro y x
  rw [State.fb_resetFor, cell_clearedFb]

end Sys2Proof.Machine
end

section
/-! SUPPORT. The invariant of 10_state.md R29: each operation on the state keeps it, hence every instruction executed
from a fetched word, every transition and every step. -/

namespace Sys2Proof.Machine

/-! ### How an instruction that checks ends -/

/-- What holds of every error entry from `s` and of every state built from a checked value holds of the next state. -/
theorem State.complete_map_induct {P : State → Prop} {α : Type} {s t : State} {r : Except ErrorKind α} {f : α → State}
    (h : s.complete (r.map f) = .next t) (herr : ∀ k, P (s.raise k)) (hok : ∀ a, r = .ok a → P (f a)) : P t := by
  obtain ⟨a, ha, rfl⟩ | ⟨k, -, rfl⟩ := State.complete_map_next h
  · exact hok a ha
  · exact herr k

/-! ### The values that `I` and `pc` receive -/

theorem zextNNN_toNat_le (nnn : Imm12) : (zextNNN nnn).toNat ≤ 0x0FFF := by
  have := nnn.isLt
  simp only [zextNNN, BitVec.toNat_setWidth]
  omega

theorem zextNNN_le_pcLimit (p : Params) (nnn : Imm12) : (zextNNN nnn).toNat ≤ pcLimit p :=
  (zextNNN_toNat_le nnn).trans (Nat.le_trans (by decide) (le_pcLimit p))

theorem indexSum_toNat_le (i : Word) (v : Byte) : (indexSum i v).toNat ≤ 0x0FFF := by
  simp only [indexSum, Config.memSize, BitVec.toNat_ofNat]
  omega

theorem glyphAddress_toNat_le (v : Byte) : (glyphAddress v).toNat ≤ 0x0FFF := by
  have := v.isLt
  rw [glyphAddress, BitVec.toNat_ofNat, Config.fontBase, Config.glyphSize]
  exact (Nat.mod_le _ _).trans (by omega)

/-- The next address after a fetched word is within the bound of `pc`. -/
theorem add_two_le_pcLimit (p : Params) {a : Word} (h : a.toNat ≤ 0x0FFE) : (a + 2).toNat ≤ pcLimit p :=
  Nat.le_trans (by bv_omega) (le_pcLimit p)

/-- The address after a skipped word is within the bound of `pc`. -/
theorem add_four_le_pcLimit (p : Params) {a : Word} (h : a.toNat ≤ 0x0FFE) : (a + 4).toNat ≤ pcLimit p :=
  Nat.le_trans (by bv_omega) (le_pcLimit p)

/-! ### Operations on parts that the invariant does not speak of -/

section KeepsEveryPart

variable {s : State} (h : Inv s)
include h

theorem Inv.withSchedule (l : List Transition) : Inv { s with schedule := l } := { h with }
theorem Inv.setV (r : Reg) (v : Byte) : Inv (s.setV r v) := { h with }
theorem Inv.setFb (fb : Framebuffer) : Inv (s.setFb fb) := { h with }
theorem Inv.setDT (v : Byte) : Inv (s.setDT v) := { h with }
theorem Inv.setST (v : Byte) : Inv (s.setST v) := { h with }
theorem Inv.setKey (k : Key) (b : Bool) : Inv (s.setKey k b) := { h with }
theorem Inv.loadRegs (bs : List Byte) : Inv (s.loadRegs bs) := { h with }
theorem Inv.tick : Inv (tick s) := { h with }

theorem Inv.sampleTaken : Inv s.sampleTaken := by
  unfold State.sampleTaken
  split
  · exact { h with }
  · exact { h with }

theorem Inv.setResultAndFlag (x : Reg) (v : Byte) (f : Bool) : Inv (s.setResultAndFlag x v f) :=
  (h.setV x v).setV VF (flagByte f)

theorem Inv.afterDraw (d : Draw) : Inv (s.afterDraw d) := (h.setFb d.fb).setV VF (flagByte d.c)

end KeepsEveryPart

/-! ### Operations on one part of the invariant -/

section OnePart

variable {s : State} (h : Inv s)
include h

theorem Inv.setI {a : Word} (ha : a.toNat ≤ 0x0FFF) : Inv (s.setI a) := { h with index := ha }

theorem Inv.setMem {m : Memory} (hm : m.wf s.params.font = true) : Inv (s.setMem m) := { h with memory := hm }

/-- CALL pushes the address it was fetched from (R83). -/
theorem Inv.pushed (hroom : s.stack.length < s.params.stackDepth) (hpc : s.pc.toNat ≤ 0x0FFE) :
    Inv { s with stack := s.pc :: s.stack } :=
  { h with
    depth := hroom
    entries := List.forall_mem_cons.2 ⟨hpc, h.entries⟩ }

theorem Inv.popped {a : Word} {rest : List Word} (hs : s.stack = a :: rest) : Inv { s with stack := rest } :=
  { h with
    depth := Nat.le_trans (by simp [hs]) h.depth
    entries := fun b hb => h.entries b (by simp [hs, hb]) }

/-- The error entry: the record is made when the machine halts, with the `pc` that it keeps (R177). -/
theorem Inv.raise (k : ErrorKind) : Inv (s.raise k) :=
  { h with
    waitingPc := nofun
    errorIffHalted := by simp
    report := by simp }

/-! ### Operations of a machine that runs -/

/-- Only a halted machine holds an error record. -/
theorem Inv.err_eq_none (hm : s.mode ≠ .halted) : s.err = none := by
  by_contra he
  exact hm (h.errorIffHalted.1 he)

/-- A running machine has no record that would hold an older `pc`, and is not waiting. -/
theorem Inv.setPc (hm : s.mode = .running) {a : Word} (ha : a.toNat ≤ pcLimit s.params) : Inv (s.setPc a) :=
  { h with
    pcBound := ha
    waitingPc := by simp [hm]
    report := by simp [h.err_eq_none (by simp [hm])] }

theorem Inv.advance (hm : s.mode = .running) (hpc : s.pc.toNat ≤ 0x0FFE) : Inv s.advance :=
  h.setPc hm (add_two_le_pcLimit s.params hpc)

theorem Inv.skipIf (hm : s.mode = .running) (hpc : s.pc.toNat ≤ 0x0FFE) (c : Bool) : Inv (s.skipIf c) := by
  refine h.setPc hm ?_
  cases c
  · exact add_two_le_pcLimit s.params hpc
  · exact add_four_le_pcLimit s.params hpc

theorem Inv.waitForKey (hm : s.mode = .running) (hpc : s.pc.toNat ≤ 0x0FFE) (x : Reg) : Inv (s.waitForKey x) :=
  { h with
    waitingPc := fun _ => hpc
    errorIffHalted := by simp [h.err_eq_none (by simp [hm])] }

/-! ### The host's transitions -/

/-- A waiting core's `pc` is the address of the fetched FX0A, so the resume stays within the bound (R152, R153). -/
theorem Inv.resume (hm : s.mode = .waitingForKey) (k : Key) : Inv (s.resume k) :=
  have herr : s.err = none := h.err_eq_none (by simp [hm])
  { h with
    pcBound := add_two_le_pcLimit s.params (h.waitingPc hm)
    waitingPc := nofun
    errorIffHalted := by simp [State.resume, herr]
    report := by simp [State.resume, herr] }

theorem Inv.keyDown (k : Key) : Inv (keyDown s k) := by
  unfold Machine.keyDown
  split
  · exact h
  · split
    next hm => exact (h.setKey k true).resume hm k
    next => exact h.setKey k true
    next => exact h.setKey k true

theorem Inv.keyUp (k : Key) : Inv (keyUp s k) := by
  unfold Machine.keyUp
  split
  · exact h.setKey k false
  · exact h

end OnePart

/-! ### The states after reset and after boot (R27, R202) -/

theorem Inv.resetFor (p : Params) : Inv (State.resetFor p) where
  index := Nat.zero_le _
  pcBound := Nat.le_trans (show 0x0200 ≤ 0x1002 by decide) (le_pcLimit p)
  waitingPc := nofun
  depth := Nat.zero_le _
  entries := nofun
  errorIffHalted := by simp [State.resetFor]
  report := nofun
  memory := State.memWf_resetFor p

theorem Inv.booted (s : State) {image : List Byte} (hi : wellFormedImage image = true) : Inv (s.booted image) :=
  have hlen : image.length ≤ Config.progMax := of_decide_eq_true hi
  { Inv.resetFor s.params with
    memory := Memory.wf_writeBytes image rfl (Nat.add_le_add_left hlen Config.progBase) }

/-! ### Instructions -/

/-- A store at `I` keeps the invariant: what `MemWrite` builds is in canonical form (R42). -/
theorem State.storeAtI_keeps_inv {s t : State} {bs : List Byte} (h : Inv s) (hm : s.mode = .running)
    (hpc : s.pc.toNat ≤ 0x0FFE) (he : s.storeAtI bs = .next t) : Inv t :=
  State.complete_map_induct he h.raise fun _ hw => (h.setMem (memWrite_keeps_wf hw h.memory)).advance hm hpc

theorem execRet_keeps_inv {s t : State} (h : Inv s) (hm : s.mode = .running) (he : execRet s = .next t) : Inv t := by
  refine State.complete_map_induct he h.raise fun (a, u) hr => ?_
  obtain ⟨rest, hs, rfl⟩ := State.pop_ok hr
  have ha : a.toNat ≤ 0x0FFE := h.entries a (by simp [hs])
  exact (h.popped hs).setPc hm (add_two_le_pcLimit s.params ha)

theorem execCall_keeps_inv {nnn : Imm12} {s t : State} (h : Inv s) (hm : s.mode = .running)
    (hpc : s.pc.toNat ≤ 0x0FFE) (he : execCall nnn s = .next t) : Inv t := by
  refine State.complete_map_induct he h.raise fun u hu => ?_
  obtain ⟨hroom, rfl⟩ := State.push_ok hu
  exact (h.pushed hroom hpc).setPc hm (zextNNN_le_pcLimit s.params nnn)

/-- An instruction that a running machine executes from a fetched word keeps the invariant: each meaning is made of the
operations above, and ends at the next address, past it, at a target, waiting, or in the error entry. -/
theorem exec_keeps_inv {i : Instr} {s t : State} (h : Inv s) (hm : s.mode = .running) (hpc : s.pc.toNat ≤ 0x0FFE)
    (he : exec i s = .next t) : Inv t := by
  cases i with
  | ldI | addI | ldR | bitOr | bitAnd | bitXor | ldVxDt => cases he; exact (h.setV _ _).advance hm hpc
  | addR | sub | shr | subn | shl => cases he; exact (h.setResultAndFlag _ _ _).advance hm hpc
  | rnd => cases he; exact (h.sampleTaken.setV _ _).advance (by simpa using hm) (by simpa using hpc)
  | jp nnn => cases he; exact h.setPc hm (zextNNN_le_pcLimit s.params nnn)
  | jpV0 nnn => cases he; exact h.setPc hm (jpV0Target_le_pcLimit s.params _ nnn)
  | seI | sneI | seR | sneR => cases he; exact h.skipIf hm hpc _
  | skp | sknp => exact State.complete_map_induct he h.raise fun _ _ => h.skipIf hm hpc _
  | ret => exact execRet_keeps_inv h hm he
  | call => exact execCall_keeps_inv h hm hpc he
  | cls => cases he; exact (h.setFb _).advance hm hpc
  | drw => exact State.complete_map_induct he h.raise fun _ _ => (h.afterDraw _).advance hm hpc
  | ldIdx nnn => cases he; exact (h.setI (zextNNN_toNat_le nnn)).advance hm hpc
  | addIdx => cases he; exact (h.setI (indexSum_toNat_le _ _)).advance hm hpc
  | ldF => cases he; exact (h.setI (glyphAddress_toNat_le _)).advance hm hpc
  | ldB | stRegs => exact State.storeAtI_keeps_inv h hm hpc he
  | ldRegs => exact State.complete_map_induct he h.raise fun _ _ => (h.loadRegs _).advance hm hpc
  | ldVxK x => cases he; exact h.waitForKey hm hpc x
  | ldDtVx => cases he; exact (h.setDT _).advance hm hpc
  | ldStVx => cases he; exact (h.setST _).advance hm hpc

/-! ### Steps -/

/-- A decoded instruction was fetched from below 0xFFF (R43). -/
theorem cpuStep_keeps_inv {s t : State} (h : Inv s) (hm : s.mode = .running) (hc : cpuStep s = .next t) : Inv t := by
  obtain ⟨k, rfl⟩ | ⟨w, i, hf, -, he⟩ := cpuStep_next hc
  · exact h.raise k
  · exact exec_keeps_inv h hm (fetch_ok hf).1 he

theorem step_keeps_inv {s t : State} (h : Inv s) (hst : step s = .next t) : Inv t := by
  obtain ⟨s₀, hs₀, hm, hc⟩ | ⟨r, -, rfl⟩ | ⟨r, -, rfl⟩ | ⟨k, r, -, rfl⟩ | ⟨k, r, -, rfl⟩ | ⟨image, r, -, hi, rfl⟩ :=
    step_cases hst
  · obtain ⟨-, rfl⟩ | ⟨r, -, rfl⟩ := hs₀
    · exact cpuStep_keeps_inv h hm hc
    · exact cpuStep_keeps_inv (h.withSchedule r) hm hc
  · exact h.withSchedule r
  · exact (h.withSchedule r).tick
  · exact (h.withSchedule r).keyDown k
  · exact (h.withSchedule r).keyUp k
  · exact Inv.booted _ hi

/-- Settles O54: `step_keeps_inv` goes through everything a step can be; the CPU agent's own step by
`exec_keeps_inv`, one operation on the state after another. -/
theorem everyStepKeepsTheInvariant : Obligations.EveryStepKeepsTheInvariant := fun _ _ => step_keeps_inv

/-- Settles O53: the table of R27, clause by clause, for the arguments of any machine. -/
theorem invariantAtReset : Obligations.InvariantAtReset := ⟨Inv.resetFor defaultParams, Inv.resetFor⟩

end Sys2Proof.Machine
end

section
/-! SUPPORT. Which instructions write which part of the state (10_state.md R11 to R24, 20_memory.md R54), and that no
instruction reads ST (10_state.md R18). -/

namespace Sys2Proof.Machine

/-! ### The writers of each part -/

/-- From `s` to `t`, each part of the state is unchanged unless `i` is an instruction the spec names for it. Memory is
unchanged as data. The default proof of a field is that the next state, written out, shows the part unchanged. -/
structure WritesOwnParts (i : Instr) (s t : State) : Prop where
  regs : ∀ r, i.namesDestination r = false → (r = VF → i.writesFlag = false) → t.getV r = s.getV r := by intros; rfl
  index : i.writesIndex = false → t.I = s.I := by intros; rfl
  stack : i.writesStack = false → t.stack = s.stack := by intros; rfl
  mem : i.storesToMemory = false → t.mem = s.mem := by intros; rfl
  fb : i.writesFramebuffer = false → t.fb = s.fb := by intros; rfl
  delay : (∀ x, i ≠ .ldDtVx x) → t.DT = s.DT := by intros; rfl
  sound : (∀ x, i ≠ .ldStVx x) → t.ST = s.ST := by intros; rfl
  waiting : (∀ x, i ≠ .ldVxK x) → t.kx = s.kx := by intros; rfl
  random : (∀ x nn, i ≠ .rnd x nn) → t.samples = s.samples ∧ t.drawn = s.drawn := by intros; exact ⟨rfl, rfl⟩
  keys : t.keys = s.keys := by rfl
  schedule : t.schedule = s.schedule := by rfl

theorem WritesOwnParts.raise (i : Instr) (s : State) (k : ErrorKind) : WritesOwnParts i s (s.raise k) := {}

section Operations

variable {i : Instr} {s u : State} (hw : WritesOwnParts i s u)
include hw

theorem WritesOwnParts.advance : WritesOwnParts i s u.advance := { hw with }

theorem WritesOwnParts.setV {x : Reg} (hx : i.namesDestination x = true) (v : Byte) :
    WritesOwnParts i s (u.setV x v) :=
  { hw with
    regs := fun r hr hv =>
      have hne : r ≠ x := by rintro rfl; simp [hx] at hr
      (u.getV_setV_ne x r v hne).trans (hw.regs r hr hv) }

theorem WritesOwnParts.setFlag (hf : i.writesFlag = true) (v : Byte) : WritesOwnParts i s (u.setV VF v) :=
  { hw with
    regs := fun r hr hv =>
      have hne : r ≠ VF := fun e => by simp [hv e] at hf
      (u.getV_setV_ne VF r v hne).trans (hw.regs r hr hv) }

end Operations

theorem WritesOwnParts.sampleTaken (x : Reg) (nn : Byte) (s : State) : WritesOwnParts (.rnd x nn) s s.sampleTaken := by
  unfold State.sampleTaken
  split
  · exact { random := fun h => absurd rfl (h x nn) }
  · exact { random := fun h => absurd rfl (h x nn) }

/-- FX65 loads as many bytes as it names registers. -/
theorem WritesOwnParts.loadRegs {x : Reg} {bs : List Byte} (s : State) (hlen : bs.length = x.val + 1) :
    WritesOwnParts (.ldRegs x) s (s.loadRegs bs) where
  regs r hr _ := by
    have hxr : x.val < r.val := by simpa [Instr.namesDestination] using hr
    rw [State.getV_loadRegs, dif_neg (by omega)]

theorem State.storeAtI_writesOwnParts {i : Instr} {s t : State} {bs : List Byte} (hi : i.storesToMemory = true)
    (h : s.storeAtI bs = .next t) : WritesOwnParts i s t :=
  State.complete_map_induct h (.raise i s) fun _ _ => { mem := by simp [hi] }

/-- Each meaning writes by the operations above; a part that no lemma above speaks of is the one it writes. -/
theorem exec_writesOwnParts {i : Instr} {s t : State} (h : exec i s = .next t) : WritesOwnParts i s t := by
  have start : WritesOwnParts i s s := {}
  cases i with
  | ldI | addI | ldR | bitOr | bitAnd | bitXor | ldVxDt =>
    cases h; exact (start.setV (by simp [Instr.namesDestination]) _).advance
  | addR | sub | shr | subn | shl =>
    cases h; exact ((start.setV (by simp [Instr.namesDestination]) _).setFlag rfl _).advance
  | rnd x nn =>
    cases h; exact ((WritesOwnParts.sampleTaken x nn s).setV (by simp [Instr.namesDestination]) _).advance
  | jp | jpV0 | seI | sneI | seR | sneR => cases h; exact {}
  | skp | sknp => exact State.complete_map_induct h (.raise _ s) fun _ _ => {}
  | ret =>
    refine State.complete_map_induct h (.raise _ s) fun (a, u) hr => ?_
    obtain ⟨rest, -, rfl⟩ := State.pop_ok hr
    exact { stack := nofun }
  | call =>
    refine State.complete_map_induct h (.raise _ s) fun u hu => ?_
    obtain ⟨-, rfl⟩ := State.push_ok hu
    exact { stack := nofun }
  | cls => cases h; exact { fb := nofun }
  | drw x y n =>
    refine State.complete_map_induct h (.raise _ s) fun _ _ => ?_
    have drawn (fb : Framebuffer) : WritesOwnParts (.drw x y n) s (s.setFb fb) := { fb := nofun }
    exact ((drawn _).setFlag rfl _).advance
  | ldIdx | addIdx | ldF => cases h; exact { index := nofun }
  | ldB | stRegs => exact State.storeAtI_writesOwnParts rfl h
  | ldRegs x =>
    refine State.complete_map_induct h (.raise _ s) fun bs hbs => ?_
    have hlen : bs.length = x.val + 1 := by rw [(memRead_ok hbs).2, Memory.readBytes_length]; rfl
    exact (WritesOwnParts.loadRegs s hlen).advance
  | ldVxK x => cases h; exact { waiting := fun hx => absurd rfl (hx x) }
  | ldDtVx x => cases h; exact { delay := fun hx => absurd rfl (hx x) }
  | ldStVx x => cases h; exact { sound := fun hx => absurd rfl (hx x) }

/-- Settles O35: `exec_writesOwnParts` for the parts, `exec_params` for the arguments; bytes are those of the memory
and of the machine's font. -/
theorem eachPartHasItsOwnWriters : Obligations.EachPartHasItsOwnWriters := by
  intro i s t h
  have hp : t.params = s.params := exec_params h
  have hw := exec_writesOwnParts h
  exact ⟨hw.regs, hw.index, hw.stack, fun hi => State.byte_congr (hw.mem hi) hp, hw.fb, hw.delay, hw.sound, hw.waiting,
    hw.random, hw.keys, hw.schedule, hp⟩

/-! ### ST is read by no instruction -/

/-- An instruction that checks ends alike from two states when its check and what it builds correspond under `g`. -/
theorem State.complete_map_comm {α : Type} {s s' t : State} {g : State → State} {r : Except ErrorKind α}
    {f f' : α → State} (h : s.complete (r.map f) = .next t) (hraise : ∀ k, s'.raise k = g (s.raise k))
    (hf : ∀ a, f' a = g (f a)) : s'.complete (r.map f') = .next (g t) := by
  obtain ⟨a, rfl, rfl⟩ | ⟨k, rfl, rfl⟩ := State.complete_map_next h
  · simp [hf]
  · simp [hraise]

theorem State.raise_setST (s : State) (v : Byte) (k : ErrorKind) : (s.setST v).raise k = (s.raise k).setST v := rfl

theorem State.sampleTaken_setST (s : State) (v : Byte) : (s.setST v).sampleTaken = s.sampleTaken.setST v := by
  unfold State.sampleTaken
  simp only [State.setST_samples]
  split <;> rfl

/-- Every meaning but that of LD ST, Vx carries a changed `ST` along. -/
theorem exec_setST {i : Instr} {s t : State} (v : Byte) (hi : ∀ x, i ≠ .ldStVx x) (h : exec i s = .next t) :
    exec i (s.setST v) = .next (t.setST v) := by
  cases i with
  | cls | jp | seI | sneI | seR | ldI | addI | ldR | bitOr | bitAnd | bitXor | addR | sub | shr | subn | shl | sneR
  | ldIdx | jpV0 | ldVxDt | ldVxK | ldDtVx | addIdx | ldF =>
    cases h; rfl
  | ldStVx x => exact absurd rfl (hi x)
  | rnd x nn =>
    cases h
    simp only [exec, execRnd, State.sampleTaken_setST]
    rfl
  | ret =>
    cases hs : s.stack with
    | nil => cases (execRet_empty hs).symm.trans h; exact execRet_empty (s := s.setST v) hs
    | cons a rest => cases (execRet_cons hs).symm.trans h; exact execRet_cons (s := s.setST v) hs
  | call nnn =>
    by_cases hroom : s.stack.length < s.params.stackDepth
    · cases (execCall_has_room hroom).symm.trans h; exact execCall_has_room (s := s.setST v) hroom
    · have hfull : s.params.stackDepth ≤ s.stack.length := Nat.le_of_not_lt hroom
      cases (execCall_full hfull).symm.trans h; exact execCall_full (s := s.setST v) hfull
  | drw | skp | sknp | ldB | stRegs | ldRegs =>
    exact State.complete_map_comm (g := (·.setST v)) h (s.raise_setST v) fun _ => rfl

/-- LD ST, Vx overwrites whatever `ST` held (R156). -/
theorem execLdStVx_setST (x : Reg) (s : State) (v : Byte) : execLdStVx x (s.setST v) = execLdStVx x s := rfl

/-- Settles O37: `exec_setST`, and for LD ST, Vx the write that covers the change. -/
theorem soundTimerInfluencesNothing : Obligations.SoundTimerInfluencesNothing := by
  intro i s t v h
  by_cases hi : ∃ x, i = .ldStVx x
  · rw [if_pos hi]
    obtain ⟨x, rfl⟩ := hi
    exact (execLdStVx_setST x s v).trans h
  · rw [if_neg hi]
    exact exec_setST v (not_exists.1 hi) h

end Sys2Proof.Machine
end

section
/-! SUPPORT. The timers and the error report over every step (10_state.md R17 to R20, 60_exceptions.md R177, R187). -/

namespace Sys2Proof.Machine

/-! ### The halted machine -/

theorem unscheduled_halted {s : State} (hm : s.mode = .halted) : unscheduled s = .fault (.halted s.err) := by
  unfold unscheduled; rw [hm]

/-- Settles O41: with nothing scheduled the step is the halted machine's own stop. -/
theorem haltedMachineReportsItsError : Obligations.HaltedMachineReportsItsError := fun _ hm hs =>
  (step_unscheduled hs).trans (unscheduled_halted hm)

/-! ### The timers under the operations that have no field lemmas yet -/

@[simp] theorem tick_DT (s : State) : (tick s).DT = countDown s.DT := rfl

@[simp] theorem tick_ST (s : State) : (tick s).ST = countDown s.ST := rfl

@[simp] theorem keyDown_DT (s : State) (k : Key) : (keyDown s k).DT = s.DT := by
  unfold keyDown
  split
  · rfl
  · split <;> rfl

@[simp] theorem keyDown_ST (s : State) (k : Key) : (keyDown s k).ST = s.ST := by
  unfold keyDown
  split
  · rfl
  · split <;> rfl

@[simp] theorem keyUp_DT (s : State) (k : Key) : (keyUp s k).DT = s.DT := by
  unfold keyUp
  split <;> rfl

@[simp] theorem keyUp_ST (s : State) (k : Key) : (keyUp s k).ST = s.ST := by
  unfold keyUp
  split <;> rfl

/-! ### The timers over a step -/

/-- What the CPU agent's step from the state without its schedule entry is: an error entry, or the execution that
`State.Executes` speaks of. -/
theorem cpuStep_executes {s s₀ t : State}
    (hs₀ : s.schedule = [] ∧ s₀ = s ∨ ∃ r, s.schedule = .step :: r ∧ s₀ = { s with schedule := r })
    (hm : s.mode = .running) (hc : cpuStep s₀ = .next t) :
    ∃ r, s₀ = { s with schedule := r } ∧ ((∃ k, t = s₀.raise k) ∨ ∃ i, s.Executes i ∧ exec i s₀ = .next t) := by
  have hsched : (s.schedule = [] ∨ ∃ r, s.schedule = .step :: r) ∧ ∃ r, s₀ = { s with schedule := r } := by
    obtain ⟨hs, rfl⟩ | ⟨r, hs, rfl⟩ := hs₀
    · exact ⟨.inl hs, s₀.schedule, rfl⟩
    · exact ⟨.inr ⟨r, hs⟩, r, rfl⟩
  obtain ⟨hs, r, rfl⟩ := hsched
  refine ⟨r, rfl, ?_⟩
  obtain hk | ⟨w, i, hf, hd, he⟩ := cpuStep_next hc
  · exact .inl hk
  · exact .inr ⟨i, ⟨hm, hs, w, hf, hd⟩, he⟩

/-- Settles O46: an instruction leaves a timer alone unless it is the timer's own writer, a tick counts down, a reset gives
0, and no other transition touches a timer. -/
theorem timersNeverRiseBetweenWrites : Obligations.TimersNeverRiseBetweenWrites := by
  intro s t h
  obtain ⟨s₀, hs₀, hm, hc⟩ | ⟨r, -, rfl⟩ | ⟨r, -, rfl⟩ | ⟨k, r, -, rfl⟩ | ⟨k, r, -, rfl⟩ | ⟨image, r, -, -, rfl⟩ :=
    step_cases h
  · obtain ⟨r, rfl, ⟨k, rfl⟩ | ⟨i, hx, he⟩⟩ := cpuStep_executes hs₀ hm hc
    · exact ⟨.inl (Nat.le_refl _), .inl (Nat.le_refl _)⟩
    · have hw := exec_writesOwnParts he
      constructor
      · by_cases hi : ∃ x, i = .ldDtVx x
        · obtain ⟨x, rfl⟩ := hi
          exact .inr ⟨x, hx⟩
        · exact .inl (congrArg BitVec.toNat (hw.delay (not_exists.1 hi))).le
      · by_cases hi : ∃ x, i = .ldStVx x
        · obtain ⟨x, rfl⟩ := hi
          exact .inr ⟨x, hx⟩
        · exact .inl (congrArg BitVec.toNat (hw.sound (not_exists.1 hi))).le
  · exact ⟨.inl (Nat.le_refl _), .inl (Nat.le_refl _)⟩
  · exact ⟨.inl (by simp), .inl (by simp)⟩
  · exact ⟨.inl (by simp), .inl (by simp)⟩
  · exact ⟨.inl (by simp), .inl (by simp)⟩
  · exact ⟨.inl (Nat.zero_le _), .inl (Nat.zero_le _)⟩

end Sys2Proof.Machine
end

section
/-! SUPPORT. Memory and the fetch (20_memory.md R40 to R54): canonical memories with equal contents are equal data, the
two access primitives, the fetched word by its bytes and fields, and what changes memory. -/

namespace Sys2Proof.Machine

section

variable {font : Font}

/-! ### Equal contents are equal data -/

theorem Memory.wfFrom_cons {m : Memory} {lo a : Nat} {v : Byte} : Memory.wfFrom font lo ((a, v) :: m) = true ↔
    lo ≤ a ∧ a < Config.memSize ∧ v ≠ Memory.unlisted font a ∧ m.wfFrom font (a + 1) = true := by
  simp [Memory.wfFrom, and_assoc]

@[simp] theorem Memory.read_cons_self (m : Memory) (a : Nat) (v : Byte) : Memory.read font ((a, v) :: m) a = v :=
  if_pos rfl

theorem Memory.read_cons_ne {m : Memory} {a b : Nat} {v : Byte} (h : a ≠ b) :
    Memory.read font ((a, v) :: m) b = m.read font b :=
  if_neg h

/-- A memory that lists nothing below `b` reads as unlisted there, so it cannot read like an entry that lies below
`b`. -/
theorem Memory.le_of_read_entry_eq {m m' : Memory} {lo b a : Nat} {v : Byte}
    (h : Memory.wfFrom font lo ((a, v) :: m) = true) (h' : m'.wfFrom font b = true)
    (hr : Memory.read font ((a, v) :: m) a = m'.read font a) : b ≤ a := by
  obtain ⟨-, -, hv, -⟩ := Memory.wfFrom_cons.1 h
  by_contra hlt
  exact hv ((Memory.read_cons_self m a v).symm.trans (hr.trans (Memory.read_below h' (by omega))))

/-- The tails of two memories that start with the same entry read alike when the memories do: at that entry as unlisted,
elsewhere as the memories. -/
theorem Memory.read_tail_congr {m m' : Memory} {a : Nat} {v : Byte} (h : m.wfFrom font (a + 1) = true)
    (h' : m'.wfFrom font (a + 1) = true)
    (hr : ∀ c, Memory.read font ((a, v) :: m) c = Memory.read font ((a, v) :: m') c) (c : Nat) :
    m.read font c = m'.read font c := by
  by_cases hc : c = a
  · rw [Memory.read_below h (by omega), Memory.read_below h' (by omega)]
  · rw [← Memory.read_cons_ne (Ne.symm hc), hr c, Memory.read_cons_ne (Ne.symm hc)]

theorem Memory.eq_of_read_eq {m m' : Memory} {lo : Nat} (h : m.wfFrom font lo = true) (h' : m'.wfFrom font lo = true)
    (hr : ∀ a, m.read font a = m'.read font a) : m = m' := by
  induction m generalizing m' lo with
  | nil =>
    cases m' with
    | nil => rfl
    | cons e' m' => exact absurd (Memory.le_of_read_entry_eq (b := e'.1 + 1) h' rfl (hr e'.1).symm) (by omega)
  | cons e m ih =>
    obtain ⟨a, v⟩ := e
    cases m' with
    | nil => exact absurd (Memory.le_of_read_entry_eq (b := a + 1) h rfl (hr a)) (by omega)
    | cons e' m' =>
      obtain ⟨b, w⟩ := e'
      obtain ⟨-, ha, hv, hm⟩ := Memory.wfFrom_cons.1 h
      obtain ⟨-, hb, hw, hm'⟩ := Memory.wfFrom_cons.1 h'
      have hba : b ≤ a := Memory.le_of_read_entry_eq h (Memory.wfFrom_cons.2 ⟨le_rfl, hb, hw, hm'⟩) (hr a)
      have hab : a ≤ b := Memory.le_of_read_entry_eq h' (Memory.wfFrom_cons.2 ⟨le_rfl, ha, hv, hm⟩) (hr b).symm
      obtain rfl : a = b := Nat.le_antisymm hab hba
      obtain rfl : v = w := by simpa using hr a
      rw [ih hm hm' (Memory.read_tail_congr hm hm' hr)]

end

/-- Settles O5: induction on the two lists, whose first entries lie at the first address that reads otherwise than
unlisted. -/
theorem canonicalMemoriesThatReadAlikeAreEqual : Obligations.CanonicalMemoriesThatReadAlikeAreEqual :=
  fun _ _ _ => Memory.eq_of_read_eq

/-! ### The access primitives (R41, R42) -/

/-- Settles O6: the two ends of `MemRead`, and the bytes of `readBytes`. -/
theorem memReadReturnsItsRangeOrFails : Obligations.MemReadReturnsItsRangeOrFails := fun _ m addr n =>
  ⟨memRead_out_of_range, fun h =>
    ⟨_, memRead_in_range h, Memory.readBytes_length m addr n, Memory.readBytes_getElem m addr n⟩⟩

/-- Settles O7: the two ends of `MemWrite`, and what `writeBytes` does inside and outside its range. -/
theorem memWriteStoresItsRangeOrFails : Obligations.MemWriteStoresItsRangeOrFails := fun _ m addr bs hw =>
  ⟨memWrite_out_of_range, fun h =>
    ⟨_, memWrite_in_range h, Memory.wf_writeBytes bs hw h, Memory.read_writeBytes_inside bs hw h,
      fun b => Memory.read_writeBytes_outside m addr b bs⟩⟩

/-! ### The fetch (R43) -/

theorem fetch_in_range {s : State} (h : s.pc.toNat ≤ 0xFFE) :
    fetch s = .ok (wordOfBytes (s.byte s.pc.toNat) (s.byte (s.pc.toNat + 1))) :=
  if_neg (by simp only [Config.memSize]; omega)

theorem fetch_out_of_range {s : State} (h : 0xFFF ≤ s.pc.toNat) : fetch s = .error .outOfBounds :=
  if_pos (by simp only [Config.memSize]; omega)

theorem wordOfBytes_high (hi lo : Byte) : (wordOfBytes hi lo).extractLsb' 8 8 = hi := by
  have := hi.isLt
  have := lo.isLt
  apply BitVec.eq_of_toNat_eq
  simp only [BitVec.extractLsb'_toNat, wordOfBytes_toNat, Nat.shiftRight_eq_div_pow]
  omega

theorem wordOfBytes_low (hi lo : Byte) : (wordOfBytes hi lo).extractLsb' 0 8 = lo := by
  have := lo.isLt
  apply BitVec.eq_of_toNat_eq
  simp only [BitVec.extractLsb'_toNat, wordOfBytes_toNat, Nat.shiftRight_zero]
  omega

/-! ### The fields of a word are the nibbles of its two bytes (R8) -/

/-- A field cut out of a part of the word is a field of the word. -/
theorem extractLsb'_extractLsb' {w len n : Nat} (x : BitVec w) (lo i : Nat) (h : i + n ≤ len) :
    (x.extractLsb' lo len).extractLsb' i n = x.extractLsb' (lo + i) n := by
  ext j hj
  simp [show i + j < len by omega, Nat.add_assoc]

theorem fieldT_high (w : Word) : fieldT w = (w.extractLsb' 8 8).extractLsb' 4 4 :=
  (extractLsb'_extractLsb' w 8 4 (by decide)).symm

theorem fieldX_high (w : Word) : fieldX w = (w.extractLsb' 8 8).extractLsb' 0 4 :=
  (extractLsb'_extractLsb' w 8 0 (by decide)).symm

theorem fieldY_low (w : Word) : fieldY w = (w.extractLsb' 0 8).extractLsb' 4 4 :=
  (extractLsb'_extractLsb' w 0 4 (by decide)).symm

theorem fieldN_low (w : Word) : fieldN w = (w.extractLsb' 0 8).extractLsb' 0 4 :=
  (extractLsb'_extractLsb' w 0 0 (by decide)).symm

/-- Settles O8: the fetch by its range; the word's halves are the two bytes, and its fields their nibbles. -/
theorem fetchIsBigEndian : Obligations.FetchIsBigEndian := by
  refine fun s => ⟨fetch_out_of_range, fun h => ⟨_, fetch_in_range h, ?_⟩⟩
  simp only [fieldT_high, fieldX_high, fieldY_low, fieldN_low, wordOfBytes_high, wordOfBytes_low, and_self]

/-! ### A fetch from stored bytes (R44, R53) -/

/-- A store at `I` in range, and the fetch of any two neighbours of the bytes it stores. -/
theorem State.storeAtI_then_fetch {s : State} {bs : List Byte} (hw : s.memWf = true)
    (hr : s.I.toNat + bs.length ≤ 4096) :
    ∃ t, s.storeAtI bs = .next t ∧ ∀ (a : Word) (i : Nat) (hi : i + 1 < bs.length), a.toNat = s.I.toNat + i →
      fetch (t.setPc a) = .ok (wordOfBytes bs[i] bs[i + 1]) := by
  refine ⟨_, State.storeAtI_in_range hr, fun a i hi ha => ?_⟩
  rw [fetch_in_range (by simp only [State.setPc_pc]; omega)]
  simp only [State.setPc_pc, State.setPc_byte, State.advance_byte, ha, Nat.add_assoc]
  rw [State.byte_store_inside hw hr, State.byte_store_inside hw hr]

/-- Settles O26: `State.storeAtI_then_fetch` for the registers' bytes and for the three digits. -/
theorem storedBytesAreFetchedAsStored : Obligations.StoredBytesAreFetchedAsStored := by
  refine fun s x hw => ⟨fun hr => ?_, fun hr => ?_⟩
  · obtain ⟨t, ht, hf⟩ := State.storeAtI_then_fetch (bs := regBytes s x) hw (by rw [regBytes_length]; omega)
    refine ⟨t, ht, fun a r q ha hq hqx => ?_⟩
    have hlen : r.val + 1 < (regBytes s x).length := by rw [regBytes_length]; have : q.val ≤ x.val := hqx; omega
    simp only [hf a r.val hlen ha, regBytes_getElem, ← hq]
  · obtain ⟨t, ht, hf⟩ := State.storeAtI_then_fetch (bs := bcdDigits (s.getV x)) hw hr
    exact ⟨t, ht, fun a => hf a 0 (by simp), fun a => hf a 1 (by simp)⟩

/-! ### The instructions that do not touch memory (R46) -/

theorem State.raise_setMem (s : State) (m : Memory) (k : ErrorKind) : (s.setMem m).raise k = (s.raise k).setMem m := rfl

theorem State.sampleTaken_setMem (s : State) (m : Memory) : (s.setMem m).sampleTaken = s.sampleTaken.setMem m := by
  unfold State.sampleTaken
  simp only [State.setMem_samples]
  split <;> rfl

theorem State.push_setMem {β : Type} (d : Nat) (s : State) (m : Memory) (a : Word) (f : State → β) :
    ((s.setMem m).push d a).map f = (s.push d a).map fun t => f (t.setMem m) := by
  by_cases h : s.stack.length < d
  · rw [State.push_has_room h, State.push_has_room (s := s.setMem m) h]; rfl
  · rw [State.push_full (Nat.le_of_not_lt h), State.push_full (s := s.setMem m) (Nat.le_of_not_lt h)]; rfl

theorem State.pop_setMem {β : Type} (s : State) (m : Memory) (f : Word × State → β) :
    (s.setMem m).pop.map f = s.pop.map fun r => f (r.1, r.2.setMem m) := by
  cases h : s.stack with
  | nil => rw [State.pop_empty h, State.pop_empty (s := s.setMem m) h]; rfl
  | cons a rest => rw [State.pop_cons h, State.pop_cons (s := s.setMem m) h]; rfl

/-- Every meaning but those of the four instructions that touch memory carries a changed memory along. -/
theorem exec_setMem {i : Instr} {s t : State} (m : Memory) (hi : i.touchesMemory = false) (h : exec i s = .next t) :
    exec i (s.setMem m) = .next (t.setMem m) := by
  cases i with
  | cls | jp | seI | sneI | seR | ldI | addI | ldR | bitOr | bitAnd | bitXor | addR | sub | shr | subn | shl | sneR
  | ldIdx | jpV0 | ldVxDt | ldVxK | ldDtVx | ldStVx | addIdx | ldF =>
    cases h; rfl
  | rnd x nn =>
    cases h
    simp only [exec, execRnd, State.sampleTaken_setMem]
    rfl
  | ret =>
    rw [exec, execRet, State.pop_setMem]
    exact State.complete_map_comm (g := (·.setMem m)) h (s.raise_setMem m) fun _ => rfl
  | call nnn =>
    rw [exec, execCall, State.push_setMem]
    exact State.complete_map_comm (g := (·.setMem m)) h (s.raise_setMem m) fun _ => rfl
  | skp | sknp => exact State.complete_map_comm (g := (·.setMem m)) h (s.raise_setMem m) fun _ => rfl
  | drw | ldB | stRegs | ldRegs => cases hi

/-- Settles O36: `exec_setMem`. -/
theorem otherInstructionsAreBlindToMemory : Obligations.OtherInstructionsAreBlindToMemory :=
  fun _ _ _ m hi h => exec_setMem m hi h

/-! ### What changes a byte of memory (R54) -/

@[simp] theorem tick_byte (s : State) (a : Nat) : (tick s).byte a = s.byte a := rfl

@[simp] theorem keyDown_byte (s : State) (k : Key) (a : Nat) : (keyDown s k).byte a = s.byte a := by
  unfold keyDown
  split
  · rfl
  · split <;> rfl

@[simp] theorem keyUp_byte (s : State) (k : Key) (a : Nat) : (keyUp s k).byte a = s.byte a := by
  unfold keyUp
  split <;> rfl

/-- Settles O47: of the transitions only a reset and an executed instruction can change memory, and of the instructions
only those that store. -/
theorem memoryChangesOnlyByStoresOrReset : Obligations.MemoryChangesOnlyByStoresOrReset := by
  intro s t a h hne
  obtain ⟨s₀, hs₀, hm, hc⟩ | ⟨r, -, rfl⟩ | ⟨r, -, rfl⟩ | ⟨k, r, -, rfl⟩ | ⟨k, r, -, rfl⟩ | ⟨image, r, hs, -, -⟩ :=
    step_cases h
  · obtain ⟨r, rfl, ⟨k, rfl⟩ | ⟨i, hx, he⟩⟩ := cpuStep_executes hs₀ hm hc
    · exact absurd rfl hne
    · refine .inr ⟨i, hx, ?_⟩
      by_contra hi
      exact hne (State.byte_congr ((exec_writesOwnParts he).mem (by simpa using hi)) (exec_params he) a)
  · exact absurd rfl hne
  · exact absurd (tick_byte _ a) hne
  · exact absurd (keyDown_byte _ k a) hne
  · exact absurd (keyUp_byte _ k a) hne
  · exact .inl ⟨image, r, hs⟩

end Sys2Proof.Machine
end

section
/-! SUPPORT. The decoder against the encoder and the opcode map (30_encoding.md R60 to R73): decoding undoes encoding,
encoding a decoded word gives its significant bits back, and a word is defined exactly when it selects a row. -/

namespace Sys2Proof

/-! ### Decoding an encoded instruction (R61, R64) -/

/-- By family: the fields of the encoded word are the ones it was encoded from. -/
theorem decode_encode (i : Instr) : decode (encode i) = .ok i := by
  cases i with
  | cls | ret => rfl
  | jp | call | seI | sneI | ldI | addI | ldIdx | jpV0 | rnd | drw => simp [encode, decode]
  | seR | sneR => simp [encode, decode, decodeN0]
  | ldR | bitOr | bitAnd | bitXor | addR | sub | shr | subn | shl => simp [encode, decode, decode8]
  | skp | sknp => simp [encode, decode, decodeE]
  | ldVxDt | ldVxK | ldDtVx | ldStVx | addIdx | ldF | ldB | stRegs | ldRegs => simp [encode, decode, decodeF]

theorem decodeBytes_bytesOfWord {w : Word} {i : Instr} (h : decode w = .ok i) :
    decodeBytes (bytesOfWord w) = .ok (i, []) := by
  rw [bytesOfWord, decodeBytes_word, wordOfBytes_of_word, h]
  rfl

/-- Settles O1: the two bytes of a word are that word again, and the decoder undoes the encoder format by format. -/
theorem decodeInvertsEncode : Obligations.DecodeInvertsEncode :=
  fun i _ => decodeBytes_bytesOfWord (decode_encode i)

/-! ### The fields of a masked word -/

theorem fieldT_and (w m : Word) : fieldT (w &&& m) = fieldT w &&& fieldT m := BitVec.extractLsb'_and

theorem fieldX_and (w m : Word) : fieldX (w &&& m) = fieldX w &&& fieldX m := BitVec.extractLsb'_and

theorem fieldY_and (w m : Word) : fieldY (w &&& m) = fieldY w &&& fieldY m := BitVec.extractLsb'_and

theorem fieldN_and (w m : Word) : fieldN (w &&& m) = fieldN w &&& fieldN m := BitVec.extractLsb'_and

theorem fieldNN_and (w m : Word) : fieldNN (w &&& m) = fieldNN w &&& fieldNN m := BitVec.extractLsb'_and

theorem fieldT_and_of_mask {w m : Word} (hm : fieldT m = BitVec.allOnes 4) : fieldT (w &&& m) = fieldT w := by
  rw [fieldT_and, hm, BitVec.and_allOnes]

theorem fieldN_and_of_mask {w m : Word} (hm : fieldN m = BitVec.allOnes 4) : fieldN (w &&& m) = fieldN w := by
  rw [fieldN_and, hm, BitVec.and_allOnes]

theorem fieldNN_and_of_mask {w m : Word} (hm : fieldNN m = BitVec.allOnes 8) : fieldNN (w &&& m) = fieldNN w := by
  rw [fieldNN_and, hm, BitVec.and_allOnes]

/-! ### Encoding a decoded word (R72, R73) -/

/-- The bits of `w` that the instruction `i` does not ignore: all but the field `Y` of a shift (R72). -/
def significantBits (i : Instr) (w : Word) : Word :=
  match i with
  | .shr _ | .shl _ => w &&& 0xFF0F#16
  | _ => w

theorem significantBits_eq (i : Instr) (w : Word) :
    significantBits i w = if (∃ x, i = .shr x) ∨ (∃ x, i = .shl x) then w &&& 0xFF0F#16 else w := by
  cases i <;> simp [significantBits]

theorem encodeNNN_of_fields {w : Word} {t : Nibble} (ht : (fieldT w).toNat = t.toNat) :
    encodeNNN t (fieldNNN w) = w := by
  rw [← BitVec.eq_of_toNat_eq ht, encodeNNN_fields]

theorem encodeXNN_of_fields {w : Word} {t : Nibble} {nn : Byte} (ht : (fieldT w).toNat = t.toNat)
    (hnn : (fieldNN w).toNat = nn.toNat) : encodeXNN t (regOf (fieldX w)) nn = w := by
  rw [← BitVec.eq_of_toNat_eq ht, ← BitVec.eq_of_toNat_eq hnn, encodeXNN_fields]

theorem encodeXYN_of_fields {w : Word} {t n : Nibble} (ht : (fieldT w).toNat = t.toNat)
    (hn : (fieldN w).toNat = n.toNat) : encodeXYN t (regOf (fieldX w)) (regOf (fieldY w)) n = w := by
  rw [← BitVec.eq_of_toNat_eq ht, ← BitVec.eq_of_toNat_eq hn, encodeXYN_fields]

/-- With `Y` = 0 in place of the word's own, the bits of `Y` are cleared. -/
theorem encodeXYN_fields_without_Y (w : Word) :
    encodeXYN (fieldT w) (regOf (fieldX w)) 0 (fieldN w) = w &&& 0xFF0F#16 := by
  have hT : fieldT (w &&& 0xFF0F#16) = fieldT w := (fieldT_and ..).trans BitVec.and_allOnes
  have hX : fieldX (w &&& 0xFF0F#16) = fieldX w := (fieldX_and ..).trans BitVec.and_allOnes
  have hY : fieldY (w &&& 0xFF0F#16) = 0 := (fieldY_and ..).trans BitVec.and_zero
  have hN : fieldN (w &&& 0xFF0F#16) = fieldN w := (fieldN_and ..).trans BitVec.and_allOnes
  rw [← encodeXYN_fields (w &&& 0xFF0F#16), hT, hX, hY, hN]
  rfl

theorem encodeXYN_of_fields_without_Y {w : Word} {t n : Nibble} (ht : (fieldT w).toNat = t.toNat)
    (hn : (fieldN w).toNat = n.toNat) : encodeXYN t (regOf (fieldX w)) 0 n = w &&& 0xFF0F#16 := by
  rw [← BitVec.eq_of_toNat_eq ht, ← BitVec.eq_of_toNat_eq hn, encodeXYN_fields_without_Y]

/-! ### Encoding a decoded word, by family -/

theorem encode_decode0 {w : Word} {i : Instr} (h : decode0 w = .ok i) : encode i = significantBits i w := by
  unfold decode0 at h
  split at h
  case h_1 hw | h_2 hw => cases h; exact (BitVec.eq_of_toNat_eq hw).symm
  case h_3 => cases h

theorem decodeN0_ok {w : Word} {i j : Instr} (h : decodeN0 w j = .ok i) : (fieldN w).toNat = 0 ∧ i = j := by
  unfold decodeN0 at h
  split at h
  case h_1 hn => cases h; exact ⟨hn, rfl⟩
  case h_2 => cases h

theorem encode_decode8 {w : Word} {i : Instr} (ht : (fieldT w).toNat = 0x8) (h : decode8 w = .ok i) :
    encode i = significantBits i w := by
  unfold decode8 at h
  split at h
  case h_1 hn | h_2 hn | h_3 hn | h_4 hn | h_5 hn | h_6 hn | h_8 hn => cases h; exact encodeXYN_of_fields ht hn
  case h_7 hn | h_9 hn => cases h; exact encodeXYN_of_fields_without_Y ht hn
  case h_10 => cases h

theorem encode_decodeE {w : Word} {i : Instr} (ht : (fieldT w).toNat = 0xE) (h : decodeE w = .ok i) :
    encode i = significantBits i w := by
  unfold decodeE at h
  split at h
  case h_1 hn | h_2 hn => cases h; exact encodeXNN_of_fields ht hn
  case h_3 => cases h

theorem encode_decodeF {w : Word} {i : Instr} (ht : (fieldT w).toNat = 0xF) (h : decodeF w = .ok i) :
    encode i = significantBits i w := by
  unfold decodeF at h
  split at h
  case h_1 hn | h_2 hn | h_3 hn | h_4 hn | h_5 hn | h_6 hn | h_7 hn | h_8 hn | h_9 hn =>
    cases h; exact encodeXNN_of_fields ht hn
  case h_10 => cases h

theorem encode_decode {w : Word} {i : Instr} (h : decode w = .ok i) : encode i = significantBits i w := by
  unfold decode at h
  split at h
  case h_1 => exact encode_decode0 h
  case h_2 ht | h_3 ht | h_11 ht | h_12 ht => cases h; exact encodeNNN_of_fields ht
  case h_4 ht | h_5 ht | h_7 ht | h_8 ht | h_13 ht => cases h; exact encodeXNN_of_fields ht rfl
  case h_6 ht | h_10 ht => obtain ⟨hn, rfl⟩ := decodeN0_ok h; exact encodeXYN_of_fields ht hn
  case h_14 ht => cases h; exact encodeXYN_of_fields ht rfl
  case h_9 ht => exact encode_decode8 ht h
  case h_15 ht => exact encode_decodeE ht h
  case h_16 =>
    have ht : (fieldT w).toNat = 0xF := by have := (fieldT w).isLt; grind
    exact encode_decodeF ht h

/-- Settles O3: `encode_decode`. -/
theorem onlyShiftsIgnoreAField : Obligations.OnlyShiftsIgnoreAField :=
  fun w i h => (encode_decode h).trans (significantBits_eq i w)

/-! ### The rows of the opcode map (R64) -/

/-- `Laws.EncodeMatchesRow`, for all instructions. -/
theorem Instr.row_selects_encode (i : Instr) : i.row.selects (encode i) = true :=
  match i with
  | .cls => Laws.EncodeMatchesRow.cls
  | .ret => Laws.EncodeMatchesRow.ret
  | .jp nnn => Laws.EncodeMatchesRow.jp nnn
  | .call nnn => Laws.EncodeMatchesRow.call nnn
  | .seI x nn => Laws.EncodeMatchesRow.seI x nn
  | .sneI x nn => Laws.EncodeMatchesRow.sneI x nn
  | .seR x y => Laws.EncodeMatchesRow.seR x y
  | .ldI x nn => Laws.EncodeMatchesRow.ldI x nn
  | .addI x nn => Laws.EncodeMatchesRow.addI x nn
  | .ldR x y => Laws.EncodeMatchesRow.ldR x y
  | .bitOr x y => Laws.EncodeMatchesRow.bitOr x y
  | .bitAnd x y => Laws.EncodeMatchesRow.bitAnd x y
  | .bitXor x y => Laws.EncodeMatchesRow.bitXor x y
  | .addR x y => Laws.EncodeMatchesRow.addR x y
  | .sub x y => Laws.EncodeMatchesRow.sub x y
  | .shr x => Laws.EncodeMatchesRow.shr x
  | .subn x y => Laws.EncodeMatchesRow.subn x y
  | .shl x => Laws.EncodeMatchesRow.shl x
  | .sneR x y => Laws.EncodeMatchesRow.sneR x y
  | .ldIdx nnn => Laws.EncodeMatchesRow.ldIdx nnn
  | .jpV0 nnn => Laws.EncodeMatchesRow.jpV0 nnn
  | .rnd x nn => Laws.EncodeMatchesRow.rnd x nn
  | .drw x y n => Laws.EncodeMatchesRow.drw x y n
  | .skp x => Laws.EncodeMatchesRow.skp x
  | .sknp x => Laws.EncodeMatchesRow.sknp x
  | .ldVxDt x => Laws.EncodeMatchesRow.ldVxDt x
  | .ldVxK x => Laws.EncodeMatchesRow.ldVxK x
  | .ldDtVx x => Laws.EncodeMatchesRow.ldDtVx x
  | .ldStVx x => Laws.EncodeMatchesRow.ldStVx x
  | .addIdx x => Laws.EncodeMatchesRow.addIdx x
  | .ldF x => Laws.EncodeMatchesRow.ldF x
  | .ldB x => Laws.EncodeMatchesRow.ldB x
  | .stRegs x => Laws.EncodeMatchesRow.stRegs x
  | .ldRegs x => Laws.EncodeMatchesRow.ldRegs x

theorem OpcodeRow.selects_iff {r : OpcodeRow} {w : Word} : r.selects w = true ↔ w &&& r.mask = r.pattern :=
  decide_eq_true_iff

/-- The bits of a word that an instruction ignores are none that its row compares (R72). -/
theorem Instr.row_selects_significantBits (i : Instr) (w : Word) :
    i.row.selects (significantBits i w) = i.row.selects w := by
  cases i with
  | shr | shl => simp only [significantBits, OpcodeRow.selects, Instr.row, BitVec.and_assoc]; rfl
  | _ => rfl

/-- A word selects the row of the instruction it decodes to. -/
theorem decode_row_selects {w : Word} {i : Instr} (h : decode w = .ok i) : i.row.selects w = true := by
  rw [← Instr.row_selects_significantBits, ← encode_decode h, Instr.row_selects_encode]

theorem Instr.row_mem_opcodeMap (i : Instr) : i.row ∈ opcodeMap := by
  cases i <;> simp [opcodeMap, Instr.row]

/-- Two rows of the map differ in a bit that both compare. -/
theorem opcodeMap_patterns_differ :
    ∀ r ∈ opcodeMap, ∀ r' ∈ opcodeMap, r.pattern &&& r'.mask = r'.pattern &&& r.mask → r = r' := by
  decide

/-- No word selects two rows of the map. -/
theorem opcodeMap_row_unique {r r' : OpcodeRow} {w : Word} (hr : r ∈ opcodeMap) (hr' : r' ∈ opcodeMap)
    (h : r.selects w = true) (h' : r'.selects w = true) : r = r' := by
  refine opcodeMap_patterns_differ r hr r' hr' ?_
  rw [← OpcodeRow.selects_iff.1 h, ← OpcodeRow.selects_iff.1 h', BitVec.and_assoc, BitVec.and_assoc,
    BitVec.and_comm r.mask]

/-! ### Rejected words (R70) -/

/-- The bits that tell whether a word of family `T` = `t` is an instruction (R65 to R69). -/
def checkedBits (t : Nat) : Word :=
  match t with
  | 0x0 => 0xFFFF
  | 0x5 | 0x8 | 0x9 => 0xF00F
  | 0xE | 0xF => 0xF0FF
  | _ => 0xF000

theorem fieldT_checkedBits (t : Nat) : fieldT (checkedBits t) = BitVec.allOnes 4 := by
  unfold checkedBits
  split <;> rfl

/-- A row of the map compares the bits checked in its family, and its pattern is an instruction. -/
theorem opcodeMap_checkedBits :
    ∀ r ∈ opcodeMap, r.mask = checkedBits (fieldT r.pattern).toNat ∧ (decode r.pattern).toBool = true := by
  decide

theorem decode0_error {w : Word} {e : DecodeReject} (h : decode0 w = .error e) : e = .unknownPattern w := by
  revert h
  unfold decode0
  split <;> rintro ⟨⟩
  rfl

theorem decodeN0_error {w w' : Word} {i j : Instr} {e : DecodeReject} (hN : fieldN w' = fieldN w)
    (h : decodeN0 w i = .error e) : e = .unknownPattern w ∧ ∃ e', decodeN0 w' j = .error e' := by
  revert h
  unfold decodeN0
  rw [hN]
  split <;> rintro ⟨⟩
  exact ⟨rfl, _, rfl⟩

theorem decode8_error {w w' : Word} {e : DecodeReject} (hN : fieldN w' = fieldN w) (h : decode8 w = .error e) :
    e = .unknownPattern w ∧ ∃ e', decode8 w' = .error e' := by
  revert h
  unfold decode8
  rw [hN]
  split <;> rintro ⟨⟩
  exact ⟨rfl, _, rfl⟩

theorem decodeE_error {w w' : Word} {e : DecodeReject} (hNN : fieldNN w' = fieldNN w) (h : decodeE w = .error e) :
    e = .unknownPattern w ∧ ∃ e', decodeE w' = .error e' := by
  revert h
  unfold decodeE
  rw [hNN]
  split <;> rintro ⟨⟩
  exact ⟨rfl, _, rfl⟩

theorem decodeF_error {w w' : Word} {e : DecodeReject} (hNN : fieldNN w' = fieldNN w) (h : decodeF w = .error e) :
    e = .unknownPattern w ∧ ∃ e', decodeF w' = .error e' := by
  revert h
  unfold decodeF
  rw [hNN]
  split <;> rintro ⟨⟩
  exact ⟨rfl, _, rfl⟩

/-- A rejected word is an unknown pattern, and its checked bits alone are rejected too. -/
theorem decode_error {w : Word} {e : DecodeReject} (h : decode w = .error e) :
    e = .unknownPattern w ∧ ∃ e', decode (w &&& checkedBits (fieldT w).toNat) = .error e' := by
  have hT := fieldT_and_of_mask (w := w) (fieldT_checkedBits (fieldT w).toNat)
  revert h
  unfold decode
  rw [hT]
  split
  case h_1 ht =>
    have hw : w &&& checkedBits 0 = w := BitVec.and_allOnes
    rw [ht, hw]
    exact fun h => ⟨decode0_error h, _, h⟩
  case h_6 ht | h_10 ht => rw [ht]; exact decodeN0_error (fieldN_and_of_mask rfl)
  case h_9 ht => rw [ht]; exact decode8_error (fieldN_and_of_mask rfl)
  case h_15 ht => rw [ht]; exact decodeE_error (fieldNN_and_of_mask rfl)
  case h_16 =>
    have ht : (fieldT w).toNat = 0xF := by have := (fieldT w).isLt; grind
    rw [ht]; exact decodeF_error (fieldNN_and_of_mask rfl)
  all_goals rintro ⟨⟩

/-- A word that selects a row of the map is not rejected: its checked bits are the row's pattern. -/
theorem not_selects_of_decode_error {w : Word} {e : DecodeReject} {r : OpcodeRow} (h : decode w = .error e)
    (hr : r ∈ opcodeMap) : r.selects w = false := by
  obtain ⟨hm, hp⟩ := opcodeMap_checkedBits r hr
  obtain ⟨-, e', he⟩ := decode_error h
  refine Bool.eq_false_iff.2 fun hs => ?_
  have hw : w &&& r.mask = r.pattern := OpcodeRow.selects_iff.1 hs
  have hT : fieldT r.pattern = fieldT w := by rw [← hw, fieldT_and_of_mask (hm ▸ fieldT_checkedBits _)]
  rw [← hT, ← hm, hw] at he
  rw [he] at hp
  cases hp

/-! ### The decoder and the opcode map (R63, R64, R70) -/

/-- Settles O2: a decoded word selects the row of its instruction, and no word selects two; a rejected word selects
none. -/
theorem wordSelectsOneRowOrIsUnknown : Obligations.WordSelectsOneRowOrIsUnknown := by
  intro w
  cases h : decode w with
  | ok i =>
    have hs := decode_row_selects h
    have hm := i.row_mem_opcodeMap
    exact .inl ⟨i, rfl, hm, hs, fun r hr hrs => opcodeMap_row_unique hr hm hrs hs⟩
  | error e =>
    exact .inr ⟨congrArg _ (decode_error h).1, fun r hr => not_selects_of_decode_error h hr⟩

/-- Settles O4: the decoder evaluated on each word. -/
theorem specWordsDecode : Obligations.SpecWordsDecode := by
  unfold Obligations.SpecWordsDecode
  decide

end Sys2Proof
end

section
/-! SUPPORT. Control transfer (40_control_flow.md R80 to R88): the frames of a move of `pc` and of a stack update, what
CALL and RET answer, and the effects of the skips, jumps, calls and returns. -/

namespace Sys2Proof.Machine

/-! ### Frames of the operations of control transfer -/

theorem AgreeOn.trans {p : Part} {s t u : State} (hst : AgreeOn p s t) (htu : AgreeOn p t u) : AgreeOn p s u := by
  cases p with
  | V | mem => exact fun r => (htu r).trans (hst r)
  | random => exact ⟨htu.1.trans hst.1, htu.2.trans hst.2⟩
  | _ => exact Eq.trans htu hst

theorem Frame.trans {ps qs : List Part} {s t u : State} (hst : Frame ps s t) (htu : Frame qs t u) :
    Frame (ps ++ qs) s u := fun p hp =>
  have ⟨hps, hqs⟩ : p ∉ ps ∧ p ∉ qs := by simpa using hp
  (hst p hps).trans (htu p hqs)

theorem State.setPc_frame (s : State) (a : Word) : Frame [.pc] s (s.setPc a) := by
  intro p hp
  cases p with
  | pc => simp at hp
  | _ => simp [AgreeOn]

theorem State.skipIf_frame (s : State) (c : Bool) : Frame [.pc] s (s.skipIf c) := s.setPc_frame _

theorem State.withStack_frame (s : State) (l : List Word) : Frame [.stack] s { s with stack := l } := by
  intro p hp
  cases p with
  | stack => simp at hp
  | V | mem => exact fun _ => rfl
  | random => exact ⟨rfl, rfl⟩
  | _ => exact rfl

theorem State.withStack_setPc_frame (s : State) (l : List Word) (a : Word) :
    Frame [.stack, .pc] s ({ s with stack := l }.setPc a) :=
  (s.withStack_frame l).trans (State.setPc_frame _ a)

/-! ### Skips and jumps (R82, R84 to R88) -/

theorem zextNNN_toNat (nnn : Imm12) : (zextNNN nnn).toNat = nnn.toNat :=
  BitVec.toNat_setWidth_of_le (by decide)

/-- The effect of an instruction that skips the next one when `c` holds (R80(b)). -/
theorem exec_skip_effect {i : Instr} {s : State} {c : Prop} [Decidable c]
    (h : exec i s = .next (s.skipIf (decide c))) :
    ∃ t, exec i s = .next t ∧ t.pc = (if c then s.pc + 4 else s.pc + 2) ∧ Frame [.pc] s t :=
  ⟨_, h, by simp, s.skipIf_frame _⟩

/-- Settles O14: each skip is `skipIf` of its own condition. -/
theorem conditionalSkipsSetPcOnly : Obligations.ConditionalSkipsSetPcOnly := fun _ _ _ _ =>
  ⟨exec_skip_effect rfl, exec_skip_effect rfl, exec_skip_effect rfl, exec_skip_effect rfl⟩

/-- Settles O15: JP is one `setPc`, to `NNN` zero-extended. -/
theorem jumpSetsPcOnly : Obligations.JumpSetsPcOnly := fun s nnn =>
  ⟨_, rfl, zextNNN_toNat nnn, s.setPc_frame _⟩

/-- Settles O16: JP V0 is one `setPc`, to a target that `jpV0Target_toNat` gives for both values of `BNNN_WRAP`. -/
theorem jumpRelativeToV0SetsPcOnly : Obligations.JumpRelativeToV0SetsPcOnly := fun s nnn =>
  ⟨_, rfl, jpV0Target_toNat s.params.bnnnWrap (s.getV 0) nnn, s.setPc_frame _⟩

/-! ### What CALL and RET answer (R81, R83) -/

theorem exec_call_has_room {s : State} (nnn : Imm12) (h : s.stack.length < s.params.stackDepth) :
    exec (.call nnn) s = .next ({ s with stack := s.pc :: s.stack }.setPc (zextNNN nnn)) := by
  rw [exec, execCall, State.push_has_room h, Except.map_ok_eq, State.complete_ok]

theorem exec_call_full {s : State} (nnn : Imm12) (h : s.params.stackDepth ≤ s.stack.length) :
    exec (.call nnn) s = .next (s.raise .stackOverflow) := by
  rw [exec, execCall, State.push_full h, Except.map_error_eq, State.complete_error]

theorem exec_ret_cons {s : State} {a : Word} {rest : List Word} (h : s.stack = a :: rest) :
    exec .ret s = .next ({ s with stack := rest }.setPc (a + 2)) := by
  rw [exec, execRet, State.pop_cons h, Except.map_ok_eq, State.complete_ok]

theorem exec_ret_empty {s : State} (h : s.stack = []) : exec .ret s = .next (s.raise .stackUnderflow) := by
  rw [exec, execRet, State.pop_empty h, Except.map_error_eq, State.complete_error]

/-- Settles O17: the two ends of CALL. -/
theorem callPushesItsOwnAddress : Obligations.CallPushesItsOwnAddress := fun s nnn =>
  ⟨fun h => ⟨_, exec_call_has_room nnn h, rfl, zextNNN_toNat nnn, s.withStack_setPc_frame _ _⟩,
    fun h => ⟨_, exec_call_full nnn h, s.raise_entersError .stackOverflow⟩⟩

/-- Settles O18: the two ends of RET. -/
theorem returnPopsAndAdvances : Obligations.ReturnPopsAndAdvances := fun s =>
  ⟨fun _ _ h => ⟨_, exec_ret_cons h, rfl, rfl, s.withStack_setPc_frame _ _⟩,
    fun h => ⟨_, exec_ret_empty h, s.raise_entersError .stackUnderflow⟩⟩

/-- Settles O19: RET pops the address that CALL pushed, so both together are one `setPc`. -/
theorem callThenReturnComesBack : Obligations.CallThenReturnComesBack := by
  intro s nnn h
  have hret : exec .ret ({ s with stack := s.pc :: s.stack }.setPc (zextNNN nnn)) = .next (s.setPc (s.pc + 2)) :=
    exec_ret_cons rfl
  exact ⟨_, _, exec_call_has_room nnn h, hret, rfl, s.setPc_frame _⟩

end Sys2Proof.Machine
end

section
/-! SUPPORT. Register load, arithmetic, bitwise, shift and random (41_load_alu.md R100 to R113): the effects of the two
shapes that end these instructions, the values and flags as numbers, and what RND answers. -/

namespace Sys2Proof.Machine

/-! ### Effects of the register writes (R101 to R111, R113) -/

theorem Frame.mono {ps qs : List Part} {s t : State} (h : ps ⊆ qs) (hst : Frame ps s t) : Frame qs s t :=
  fun p hp => hst p fun hm => hp (h hm)

theorem State.setV_frame (s : State) (x : Reg) (v : Byte) : Frame [.V] s (s.setV x v) := by
  intro p hp
  cases p with
  | V => simp at hp
  | _ => simp [AgreeOn]

theorem State.advance_frame (s : State) : Frame [.pc] s s.advance := s.setPc_frame _

theorem State.setV_advance_frame (s : State) (x : Reg) (v : Byte) : Frame [.V, .pc] s (s.setV x v).advance :=
  (s.setV_frame x v).trans (State.advance_frame _)

theorem State.setV_advance_writesReg (s : State) (x : Reg) (v : Byte) : WritesReg x v s (s.setV x v).advance :=
  ⟨s.getV_setV_same x v, fun r => s.getV_setV_ne x r v⟩

/-- The flag is written last, so with `x` = 15 it covers the result. -/
theorem State.setResultAndFlag_writesRegAndFlag (s : State) (x : Reg) (v : Byte) (c : Bool) :
    WritesRegAndFlag x v (flagByte c) s (s.setResultAndFlag x v c).advance :=
  ⟨s.setResultAndFlag_flag x v c, s.setResultAndFlag_result x v c, fun r => s.setResultAndFlag_other x r v c⟩

theorem State.setResultAndFlag_frame (s : State) (x : Reg) (v : Byte) (c : Bool) :
    Frame [.V] s (s.setResultAndFlag x v c) :=
  ((s.setV_frame x v).trans (State.setV_frame _ VF _)).mono (by simp)

/-- The effect of an instruction that writes `V[x]` alone, with the value `w` that the rule names. -/
theorem exec_withResult_effect {i : Instr} {s : State} {x : Reg} {v w : Byte} (h : exec i s = s.withResult x v)
    (hv : v = w) :
    ∃ t, exec i s = .next t ∧ WritesReg x w s t ∧ t.pc = s.pc + 2 ∧ Frame [.V, .pc] s t :=
  hv ▸ ⟨_, h, s.setV_advance_writesReg x v, rfl, s.setV_advance_frame x v⟩

/-- The effect of an instruction that writes `V[x]` and then VF, with the value `w` and the flag `f` that the rule
names. -/
theorem exec_withResultAndFlag_effect {i : Instr} {s : State} {x : Reg} {v w f : Byte} {c : Bool}
    (h : exec i s = s.withResultAndFlag x v c) (hv : v = w) (hf : flagByte c = f) :
    ∃ t, exec i s = .next t ∧ WritesRegAndFlag x w f s t ∧ t.pc = s.pc + 2 ∧ Frame [.V, .pc] s t :=
  hv ▸ hf ▸ ⟨_, h, s.setResultAndFlag_writesRegAndFlag x v c, rfl,
    (s.setResultAndFlag_frame x v c).trans (State.advance_frame _)⟩

/-! ### Results and flags as numbers (R102, R107 to R111) -/

theorem byte_add_eq_ofNat (a b : Byte) : a + b = BitVec.ofNat 8 ((a.toNat + b.toNat) % 256) := by
  apply BitVec.eq_of_toNat_eq
  simp

theorem byte_sub_eq_ofInt (a b : Byte) : a - b = BitVec.ofInt 8 ((a.toNat : Int) - b.toNat) := by
  apply BitVec.eq_of_toNat_eq
  rw [BitVec.toNat_sub, BitVec.toNat_ofInt]
  omega

theorem byte_shiftRight_one_eq_ofNat (a : Byte) : a >>> 1 = BitVec.ofNat 8 (a.toNat / 2) := by
  apply BitVec.eq_of_toNat_eq
  have := a.isLt
  simp [Nat.shiftRight_eq_div_pow]
  omega

theorem byte_shiftLeft_one_eq_ofNat (a : Byte) : a <<< 1 = BitVec.ofNat 8 (a.toNat * 2 % 256) := by
  apply BitVec.eq_of_toNat_eq
  simp [Nat.shiftLeft_eq]

theorem flagByte_decide (p : Prop) [Decidable p] : flagByte (decide p) = if p then 1 else 0 := by
  simp [flagByte]

/-- Not-borrow of `b − a`, by the condition that R110 writes. -/
theorem flagByte_notBorrow_swap (a b : Byte) : flagByte (notBorrow b a) = if a.toNat > b.toNat then 0 else 1 := by
  rw [notBorrow, flagByte_decide, ← ite_not]
  simp

/-- A bit as a flag is the quotient that ends in it, modulo 2. -/
theorem flagByte_getLsbD (a : Byte) (k : Nat) : flagByte (a.getLsbD k) = BitVec.ofNat 8 (a.toNat / 2 ^ k % 2) := by
  rw [BitVec.getLsbD, Nat.testBit_eq_decide_div_mod_eq, flagByte_decide]
  obtain h | h := Nat.mod_two_eq_zero_or_one (a.toNat / 2 ^ k)
  · simp [h]
  · simp [h]

theorem flagByte_shiftedOutLow (a : Byte) : flagByte (shiftedOutLow a) = BitVec.ofNat 8 (a.toNat % 2) := by
  rw [shiftedOutLow, flagByte_getLsbD, Nat.pow_zero, Nat.div_one]

theorem flagByte_shiftedOutHigh (a : Byte) : flagByte (shiftedOutHigh a) = BitVec.ofNat 8 (a.toNat / 128) := by
  have hq : a.toNat / 128 < 2 := by have := a.isLt; omega
  exact (flagByte_getLsbD a 7).trans (congrArg (BitVec.ofNat 8) (Nat.mod_eq_of_lt hq))

/-! ### Load, arithmetic, bitwise and shift (R101 to R111) -/

/-- Settles O9: each of the six is `withResult`, and the sum of R102 is the byte sum. -/
theorem loadsAddImmediateAndBitwiseWriteVxOnly : Obligations.LoadsAddImmediateAndBitwiseWriteVxOnly := fun s x _ nn =>
  ⟨exec_withResult_effect rfl rfl,
    exec_withResult_effect rfl (byte_add_eq_ofNat (s.getV x) nn),
    exec_withResult_effect rfl rfl, exec_withResult_effect rfl rfl, exec_withResult_effect rfl rfl,
    exec_withResult_effect rfl rfl⟩

/-- Settles O10: ADD is `withResultAndFlag` of the byte sum and `carryOut`. -/
theorem addRegistersWritesSumThenCarry : Obligations.AddRegistersWritesSumThenCarry := fun s x y =>
  exec_withResultAndFlag_effect rfl (byte_add_eq_ofNat (s.getV x) (s.getV y)) (flagByte_decide _)

/-- Settles O11: SUB and SUBN are `withResultAndFlag` of the byte difference and `notBorrow`, each in its own order. -/
theorem subtractsWriteDifferenceThenNotBorrow : Obligations.SubtractsWriteDifferenceThenNotBorrow := fun s x y =>
  ⟨exec_withResultAndFlag_effect rfl (byte_sub_eq_ofInt (s.getV x) (s.getV y)) (flagByte_decide _),
    exec_withResultAndFlag_effect rfl (byte_sub_eq_ofInt (s.getV y) (s.getV x))
      (flagByte_notBorrow_swap (s.getV x) (s.getV y))⟩

/-- Settles O12: SHR and SHL are `withResultAndFlag` of the shifted byte and the bit that left it. -/
theorem shiftsWriteResultThenBitShiftedOut : Obligations.ShiftsWriteResultThenBitShiftedOut := fun s x =>
  ⟨exec_withResultAndFlag_effect rfl (byte_shiftRight_one_eq_ofNat (s.getV x)) (flagByte_shiftedOutLow (s.getV x)),
    exec_withResultAndFlag_effect rfl (byte_shiftLeft_one_eq_ofNat (s.getV x)) (flagByte_shiftedOutHigh (s.getV x))⟩

/-! ### RND (R112) -/

theorem State.sampleTaken_frame (s : State) : Frame [.random] s s.sampleTaken := by
  intro p hp
  cases p with
  | random => simp at hp
  | _ => simp [AgreeOn]

theorem exec_rnd (x : Reg) (nn : Byte) (s : State) :
    exec (.rnd x nn) s = .next (s.sampleTaken.setV x (s.sample &&& nn)).advance := rfl

theorem exec_rnd_effect (x : Reg) (nn : Byte) (s : State) :
    ∃ t, exec (.rnd x nn) s = .next t ∧ WritesReg x (s.sample &&& nn) s t ∧ t.pc = s.pc + 2 ∧
      Frame [.V, .pc, .random] s t := by
  obtain ⟨hx, hother⟩ := s.sampleTaken.setV_advance_writesReg x (s.sample &&& nn)
  refine ⟨_, exec_rnd x nn s, ⟨hx, fun r hr => (hother r hr).trans (s.sampleTaken_getV r)⟩, by simp, ?_⟩
  exact (s.sampleTaken_frame.trans (State.setV_advance_frame _ x _)).mono (by simp)

theorem exec_rnd_supplied {s : State} {r : Byte} {rest : List Byte} (x : Reg) (nn : Byte) (h : s.samples = r :: rest) :
    ∃ t, exec (.rnd x nn) s = .next t ∧ t.getV x = r &&& nn ∧ t.samples = rest ∧ t.drawn = s.drawn := by
  obtain ⟨hr, ht⟩ := State.sample_supplied h
  exact ⟨_, exec_rnd x nn s, by simp [hr], by simp [ht], by simp [ht]⟩

theorem exec_rnd_free {s : State} (x : Reg) (nn : Byte) (h : s.samples = []) :
    ∃ t, exec (.rnd x nn) s = .next t ∧ t.getV x = Config.freeSample s.drawn &&& nn ∧ t.samples = [] ∧
      t.drawn = s.drawn + 1 := by
  obtain ⟨hr, ht⟩ := State.sample_free h
  exact ⟨_, exec_rnd x nn s, by simp [hr], by simp [ht, h], by simp [ht]⟩

/-- Settles O13: the mask clears every bit outside `NN`, and a value inside `NN` is the result when it is itself the
sample. -/
theorem randomIsAnySampleMasked : Obligations.RandomIsAnySampleMasked := by
  intro s x nn
  refine ⟨?_, fun r rest => exec_rnd_supplied x nn, exec_rnd_free x nn, fun v hv => ?_⟩
  · obtain ⟨t, he, ⟨hx, hother⟩, hpc, hframe⟩ := exec_rnd_effect x nn s
    have hmask : t.getV x &&& ~~~nn = 0 := by simp [hx, BitVec.and_assoc]
    exact ⟨s.sample, t, he, ⟨hx, hother⟩, hmask, hpc, hframe⟩
  · obtain ⟨t, he, hx, -, -⟩ := exec_rnd_supplied (s := { s with samples := [v] }) x nn rfl
    exact ⟨[v], t, he, hx.trans hv⟩

end Sys2Proof.Machine
end

section
/-! SUPPORT. Index register and memory instructions (42_index_memory.md R120 to R126): the effect of a write of `I`, of a
store at `I` and of a load from `I`, and a dump followed by a load. -/

namespace Sys2Proof.Machine

/-! ### Writes of `I` (R121 to R123) -/

theorem State.setI_frame (s : State) (a : Word) : Frame [.I] s (s.setI a) := by
  intro p hp
  cases p with
  | I => simp at hp
  | _ => simp [AgreeOn]

/-- The effect of an instruction that writes `I` alone, with the address `n` that the rule names. -/
theorem exec_setI_effect {i : Instr} {s : State} {a : Word} {n : Nat} (h : exec i s = .next (s.setI a).advance)
    (ha : a.toNat = n) : ∃ t, exec i s = .next t ∧ t.I.toNat = n ∧ t.pc = s.pc + 2 ∧ Frame [.I, .pc] s t :=
  ⟨_, h, ha, rfl, (s.setI_frame a).trans (State.advance_frame _)⟩

theorem indexSum_toNat (i : Word) (v : Byte) : (indexSum i v).toNat = (i.toNat + v.toNat) % 4096 := by
  simp only [indexSum, Config.memSize, BitVec.toNat_ofNat]
  omega

/-- The largest glyph address, of the byte 0xFF, is within 16 bits. -/
theorem glyphAddress_toNat (v : Byte) : (glyphAddress v).toNat = 0x050 + v.toNat * 5 := by
  have := v.isLt
  simp only [glyphAddress, Config.fontBase, Config.glyphSize, BitVec.toNat_ofNat]
  omega

/-- Settles O20: ADD I is one `setI`, to the sum modulo 4096. -/
theorem addToIndexWrapsAt4096 : Obligations.AddToIndexWrapsAt4096 := fun s x =>
  exec_setI_effect rfl (indexSum_toNat s.I (s.getV x))

/-- Settles O21: LD I and LD F are each one `setI`, to `NNN` zero-extended and to the glyph address of the whole byte. -/
theorem loadIndexAndGlyphAddress : Obligations.LoadIndexAndGlyphAddress := fun s x nnn =>
  ⟨exec_setI_effect rfl (zextNNN_toNat nnn), exec_setI_effect rfl (glyphAddress_toNat (s.getV x))⟩

/-! ### Stores at `I` (R124, R125) -/

theorem State.setMem_frame (s : State) (m : Memory) : Frame [.mem] s (s.setMem m) := by
  intro p hp
  cases p with
  | mem => simp at hp
  | _ => simp [AgreeOn]

theorem State.store_storesBytes {s : State} {a : Nat} {bs : List Byte} (hw : s.memWf = true)
    (hr : a + bs.length ≤ 4096) : StoresBytes a bs s (s.setMem (s.mem.writeBytes s.params.font a bs)) :=
  ⟨State.byte_store_inside hw hr, fun b => s.byte_store_outside a b bs⟩

/-- The effect of an instruction that stores `bs` at `I`, in range. -/
theorem exec_storeAtI_effect {i : Instr} {s : State} {bs : List Byte} (h : exec i s = s.storeAtI bs)
    (hw : s.memWf = true) (hr : s.I.toNat + bs.length ≤ 4096) :
    ∃ t, exec i s = .next t ∧ StoresBytes s.I.toNat bs s t ∧ t.pc = s.pc + 2 ∧ Frame [.mem, .pc] s t :=
  ⟨_, h.trans (State.storeAtI_in_range hr), State.store_storesBytes hw hr, rfl,
    (s.setMem_frame _).trans (State.advance_frame _)⟩

theorem exec_storeAtI_error {i : Instr} {s : State} {bs : List Byte} (h : exec i s = s.storeAtI bs)
    (hr : 4096 < s.I.toNat + bs.length) : ∃ t, exec i s = .next t ∧ EntersError .outOfBounds s t :=
  ⟨_, h.trans (State.storeAtI_out_of_range hr), s.raise_entersError .outOfBounds⟩

/-- Each digit fits a byte, so the three give the value back. -/
theorem bcdDigits_sum (v : Byte) : 100 * (BitVec.ofNat 8 (v.toNat / 100)).toNat +
    10 * (BitVec.ofNat 8 (v.toNat / 10 % 10)).toNat + (BitVec.ofNat 8 (v.toNat % 10)).toNat = v.toNat := by
  have := v.isLt
  simp only [BitVec.toNat_ofNat]
  omega

/-- Settles O22: LD B stores `bcdDigits` at `I`, and the stored bytes are the digits that `bcdDigits_sum` adds up. -/
theorem storeBcdWritesThreeDigits : Obligations.StoreBcdWritesThreeDigits := by
  refine fun s x hw => ⟨fun hr => ?_, exec_storeAtI_error (bs := bcdDigits (s.getV x)) rfl⟩
  obtain ⟨t, he, ⟨hin, hout⟩, hpc, hframe⟩ := exec_storeAtI_effect (i := .ldB x) (bs := bcdDigits (s.getV x)) rfl hw hr
  have h0 : t.byte s.I.toNat = BitVec.ofNat 8 ((s.getV x).toNat / 100) := hin 0 (by simp)
  have h1 : t.byte (s.I.toNat + 1) = BitVec.ofNat 8 ((s.getV x).toNat / 10 % 10) := hin 1 (by simp)
  have h2 : t.byte (s.I.toNat + 2) = BitVec.ofNat 8 ((s.getV x).toNat % 10) := hin 2 (by simp)
  refine ⟨t, he, ⟨hin, hout⟩, ?_, hpc, hframe⟩
  rw [h0, h1, h2, bcdDigits_sum]

/-- The bytes that FX55 stores, by register: `V[r]` at `a + r`. -/
theorem StoresBytes.byte_of_regBytes {a : Nat} {x r : Reg} {s t : State} (h : StoresBytes a (regBytes s x) s t)
    (hrx : r ≤ x) : t.byte (a + r.val) = s.getV r := by
  have hlen : r.val < (regBytes s x).length := by rw [regBytes_length]; exact Nat.lt_succ_of_le hrx
  rw [h.1 r.val hlen, regBytes_getElem]

/-- Settles O23: LD [I], Vx stores `regBytes` at `I`. -/
theorem storeRegistersWritesV0ToVx : Obligations.StoreRegistersWritesV0ToVx := by
  intro s x hw
  have hlen : (regBytes s x).length = x.val + 1 := regBytes_length s x
  refine ⟨fun hr => ?_, fun hr => exec_storeAtI_error (bs := regBytes s x) rfl (by omega)⟩
  obtain ⟨t, he, hstore, hpc, hframe⟩ := exec_storeAtI_effect (i := .stRegs x) (bs := regBytes s x) rfl hw (by omega)
  exact ⟨t, he, fun r => hstore.byte_of_regBytes, fun b hb => hstore.2 b (by omega), hpc, hframe⟩

/-! ### Loads from `I` (R126) -/

theorem State.loadRegs_frame (s : State) (bs : List Byte) : Frame [.V] s (s.loadRegs bs) := by
  intro p hp
  cases p with
  | V => simp at hp
  | _ => simp [AgreeOn]

/-- A register within the bytes of memory that are loaded receives its own byte. -/
theorem State.getV_loadRegs_readBytes (s : State) {a n : Nat} {r : Reg} (h : r.val < n) :
    (s.loadRegs (s.mem.readBytes s.params.font a n)).getV r = s.byte (a + r.val) := by
  rw [State.getV_loadRegs, dif_pos (by simpa using h), Memory.readBytes_getElem]
  rfl

theorem State.getV_loadRegs_above (s : State) {bs : List Byte} {r : Reg} (h : bs.length ≤ r.val) :
    (s.loadRegs bs).getV r = s.getV r := by
  rw [State.getV_loadRegs, dif_neg (Nat.not_lt.2 h)]

/-- Settles O24: the two ends of LD Vx, [I]; the registers up to `X` are the ones within the loaded bytes. -/
theorem loadRegistersReadsV0ToVx : Obligations.LoadRegistersReadsV0ToVx := by
  refine fun s x => ⟨fun hr => ⟨_, execLdRegs_in_range hr, fun r hrx => ?_, fun r hxr => ?_, rfl, ?_⟩,
    fun hr => ⟨_, execLdRegs_out_of_range hr, s.raise_entersError .outOfBounds⟩⟩
  · exact s.getV_loadRegs_readBytes (Nat.lt_succ_of_le hrx)
  · exact s.getV_loadRegs_above (by rw [Memory.readBytes_length]; exact hxr)
  · exact (s.loadRegs_frame _).trans (State.advance_frame _)

/-! ### A dump followed by a load -/

/-- Settles O25: the load gives each register the byte at `I` plus its index (O24), which is where the dump stored it
(O23). -/
theorem dumpThenLoadRestoresRegisters : Obligations.DumpThenLoadRestoresRegisters := by
  intro s u x hw hr
  obtain ⟨t, hdump, hstored, -⟩ := (storeRegistersWritesV0ToVx s x hw).1 hr
  obtain ⟨w, hload, hloaded, -⟩ :=
    (loadRegistersReadsV0ToVx { u with mem := t.mem, params := t.params, I := s.I } x).1 hr
  refine ⟨t, hdump, w, hload, fun r hrx => ?_⟩
  calc w.getV r = t.byte (s.I.toNat + r.val) := hloaded r hrx
    _ = s.getV r := hstored r hrx

end Sys2Proof.Machine
end

section
/-! SUPPORT. Framebuffer instructions (43_display.md R140 to R143): the effect of a whole draw, and two draws of the same
sprite in a row. -/

namespace Sys2Proof.Machine

/-! ### Frames and flags of the display operations (R141, R142) -/

theorem State.setFb_frame (s : State) (fb : Framebuffer) : Frame [.fb] s (s.setFb fb) := by
  intro p hp
  cases p with
  | fb => simp at hp
  | _ => simp [AgreeOn]

theorem State.afterDraw_frame (s : State) (d : Draw) : Frame [.V, .fb] s (s.afterDraw d) :=
  ((s.setFb_frame d.fb).trans (State.setV_frame _ VF _)).mono (by simp)

@[simp] theorem flagByte_eq_one_iff (b : Bool) : flagByte b = 1 ↔ b = true := by
  cases b <;> decide

theorem flagByte_eq_zero_or_one (b : Bool) : flagByte b = 0 ∨ flagByte b = 1 := by
  cases b <;> decide

/-! ### CLS (R141) -/

/-- Settles O27: CLS is one `setFb`, to the framebuffer whose cells are all 0. -/
theorem clearZeroesEveryCell : Obligations.ClearZeroesEveryCell := fun s =>
  ⟨_, rfl, fun y x _ _ => cell_clearedFb y x, rfl, (s.setFb_frame clearedFb).trans (State.advance_frame _)⟩

/-! ### DRW (R142) -/

theorem exec_drw_in_range {s : State} {n : Nibble} (x y : Reg) (h : s.I.toNat + n.toNat ≤ 4096) :
    exec (.drw x y n) s = .next (s.afterDraw (drawSprite s.fb (originY (s.getV y)) (originX (s.getV x))
      (s.mem.readBytes s.params.font s.I.toNat n.toNat))).advance := by
  rw [exec, execDrw_in_range h]

/-- The bit of the sprite of `DRW x, y, n` that falls on the cell (`cx`, `cy`), with the bytes and the origin that the
instruction reads in `s`. -/
def State.spriteBitAt (s : State) (x y : Reg) (n : Nibble) (cy cx : Nat) : Bool :=
  spriteBit (s.mem.readBytes s.params.font s.I.toNat n.toNat) ((s.getV y).toNat % 32) ((s.getV x).toNat % 64) cy cx

/-- From `s` to `t`, the whole effect of `DRW x, y, n` in range. -/
structure DrawsSprite (x y : Reg) (n : Nibble) (s t : State) : Prop where
  cells : ∀ cy cx, cy < 32 → cx < 64 → cell t.fb cy cx = (cell s.fb cy cx ^^ s.spriteBitAt x y n cy cx)
  collides : t.getV VF = 1 ↔
    ∃ cy cx, cy < 32 ∧ cx < 64 ∧ cell s.fb cy cx = true ∧ s.spriteBitAt x y n cy cx = true
  flag : t.getV VF = 0 ∨ t.getV VF = 1
  registers : ∀ r, r ≠ VF → t.getV r = s.getV r
  pc : t.pc = s.pc + 2
  frame : Frame [.V, .fb, .pc] s t

theorem exec_drw_drawsSprite {s : State} {n : Nibble} (x y : Reg) (h : s.I.toNat + n.toNat ≤ 4096) :
    ∃ t, exec (.drw x y n) s = .next t ∧ DrawsSprite x y n s t := by
  refine ⟨_, exec_drw_in_range x y h, ?_⟩
  generalize hd : drawSprite s.fb _ _ _ = d
  have hvf : (s.afterDraw d).advance.getV VF = flagByte d.c := State.getV_setV_same _ VF _
  exact {
    cells := fun cy cx hy hx => hd ▸ cell_drawRows _ _ _ _ cy cx hy hx
    collides := by
      rw [hvf, flagByte_eq_one_iff, ← hd, drawSprite, c_drawRows, or_iff_right Bool.false_ne_true]
      rfl
    flag := hvf ▸ flagByte_eq_zero_or_one d.c
    registers := fun r => State.getV_setV_ne _ VF r _
    pc := rfl
    frame := (s.afterDraw_frame d).trans (State.advance_frame _) }

theorem exec_drw_out_of_range {s : State} {n : Nibble} (x y : Reg) (h : 4096 < s.I.toNat + n.toNat) :
    exec (.drw x y n) s = .next (s.raise .outOfBounds) := by
  rw [exec, execDrw_out_of_range h]

/-- Settles O28: the two ends of DRW; the rows are the `N` bytes read from `I`. -/
theorem drawXorsClippedSprite : Obligations.DrawXorsClippedSprite := by
  refine fun s x y n => ⟨fun hr => ?_,
    fun hr => ⟨_, exec_drw_out_of_range x y hr, s.raise_entersError .outOfBounds⟩⟩
  obtain ⟨t, he, hd⟩ := exec_drw_drawsSprite x y hr
  exact ⟨t, s.mem.readBytes s.params.font s.I.toNat n.toNat, he, Memory.readBytes_length _ _ _,
    fun i => Memory.readBytes_getElem _ _ _ i, hd.cells, hd.collides, hd.flag, hd.registers, hd.pc, hd.frame⟩

/-! ### Two draws in a row (R142, C5) -/

theorem State.readBytes_congr {s t : State} (h : ∀ a, t.byte a = s.byte a) (a n : Nat) :
    t.mem.readBytes t.params.font a n = s.mem.readBytes s.params.font a n := by
  apply List.ext_getElem
  · simp
  · intro i ht hs
    rw [Memory.readBytes_getElem, Memory.readBytes_getElem]
    exact h (a + i)

section
variable {x y : Reg} {n : Nibble} {s t u : State}

/-- A draw whose origin registers are not VF leaves the sprite it drew, its bytes and its origin, as it was. -/
theorem DrawsSprite.spriteBitAt_eq (h : DrawsSprite x y n s t) (hx : x ≠ VF) (hy : y ≠ VF) :
    t.spriteBitAt x y n = s.spriteBitAt x y n := by
  have hI : t.I = s.I := h.frame .I (by decide)
  have hrows := State.readBytes_congr (h.frame .mem (by decide)) s.I.toNat n.toNat
  funext cy cx
  rw [State.spriteBitAt, hI, hrows, h.registers x hx, h.registers y hy, State.spriteBitAt]

/-- The same bit XORed twice into a cell leaves it as it was. -/
theorem DrawsSprite.twice_fb (hst : DrawsSprite x y n s t) (htu : DrawsSprite x y n t u)
    (hbit : t.spriteBitAt x y n = s.spriteBitAt x y n) : u.fb = s.fb :=
  fb_ext fun cy cx hy hx => by
    rw [htu.cells cy cx hy hx, hst.cells cy cx hy hx, hbit, Bool.xor_assoc, Bool.xor_self, Bool.xor_false]

/-- Under a set sprite bit the first draw flips the cell, so the second collides where the cell was unset. -/
theorem DrawsSprite.twice_collides (hst : DrawsSprite x y n s t) (htu : DrawsSprite x y n t u)
    (hbit : t.spriteBitAt x y n = s.spriteBitAt x y n) :
    u.getV VF = 1 ↔ ∃ cy cx, cy < 32 ∧ cx < 64 ∧ cell s.fb cy cx = false ∧ s.spriteBitAt x y n cy cx = true := by
  rw [htu.collides, hbit]
  refine exists₂_congr fun cy cx => and_congr_right fun hy => and_congr_right fun hx => and_congr_left fun hb => ?_
  rw [hst.cells cy cx hy hx, hb, Bool.xor_true, Bool.not_eq_true']

end

/-- Settles O29: the second draw draws the same sprite, since the first changes no register but VF, and neither `I` nor
memory. -/
theorem drawTwiceRestoresFramebuffer : Obligations.DrawTwiceRestoresFramebuffer := by
  intro s x y n hx hy hr
  obtain ⟨t, hest, hst⟩ := exec_drw_drawsSprite x y hr
  have hI : t.I = s.I := hst.frame .I (by decide)
  obtain ⟨u, hetu, htu⟩ := exec_drw_drawsSprite x y (s := t) (n := n) (hI ▸ hr)
  have hbit := hst.spriteBitAt_eq hx hy
  exact ⟨t, u, hest, hetu, hst.twice_fb htu hbit, hst.twice_collides htu hbit⟩

end Sys2Proof.Machine
end

section
/-! SUPPORT. Keypad and timer instructions (44_keypad_timers.md R150 to R156) and the key-down (60_exceptions.md R189): the
frames of the operations they are made of, and what a key-down does to a waiting core and to any other. -/

namespace Sys2Proof.Machine

/-! ### Frames of the keypad and timer operations -/

theorem State.waitForKey_frame (s : State) (x : Reg) : Frame [.kx, .mode] s (s.waitForKey x) := by
  intro p hp
  cases p with
  | kx | mode => simp at hp
  | _ => simp [AgreeOn]

theorem State.setDT_frame (s : State) (v : Byte) : Frame [.DT] s (s.setDT v) := by
  intro p hp
  cases p with
  | DT => simp at hp
  | _ => simp [AgreeOn]

theorem State.setST_frame (s : State) (v : Byte) : Frame [.ST] s (s.setST v) := by
  intro p hp
  cases p with
  | ST => simp at hp
  | _ => simp [AgreeOn]

theorem State.setKey_frame (s : State) (k : Key) (b : Bool) : Frame [.keys] s (s.setKey k b) := by
  intro p hp
  cases p with
  | keys => simp at hp
  | _ => simp [AgreeOn]

theorem State.withSchedule_frame (s : State) (l : List Transition) : Frame [.schedule] s { s with schedule := l } := by
  intro p hp
  cases p with
  | schedule => simp at hp
  | V | mem => exact fun _ => rfl
  | random => exact ⟨rfl, rfl⟩
  | _ => exact rfl

theorem State.withMode_frame (s : State) (m : Mode) : Frame [.mode] s { s with mode := m } := by
  intro p hp
  cases p with
  | mode => simp at hp
  | V | mem => exact fun _ => rfl
  | random => exact ⟨rfl, rfl⟩
  | _ => exact rfl

theorem State.resume_frame (s : State) (k : Key) : Frame [.V, .pc, .mode] s (s.resume k) :=
  (s.setV_advance_frame s.kx _).trans (State.withMode_frame _ .running)

theorem State.resume_writesReg (s : State) (k : Key) : WritesReg s.kx (BitVec.ofNat 8 k.val) s (s.resume k) :=
  s.setV_advance_writesReg s.kx _

/-! ### Instructions (R150 to R152, R154 to R156) -/

/-- Settles O30: within 0x0F the byte is the key's own code, so each instruction is `skipIf` of that key's level. -/
theorem skipsOnKeyLevelOrInvalidKey : Obligations.SkipsOnKeyLevelOrInvalidKey := by
  refine fun s x => ⟨fun k hk => ?_, fun h =>
    ⟨⟨_, execSkp_invalid h, s.raise_entersError .invalidKey⟩, ⟨_, execSknp_invalid h, s.raise_entersError .invalidKey⟩⟩⟩
  have hlt : (s.getV x).toNat < 16 := hk ▸ k.isLt
  obtain rfl : k = ⟨(s.getV x).toNat, hlt⟩ := Fin.ext hk.symm
  constructor
  · exact exec_skip_effect (by rw [Bool.decide_eq_true]; exact execSkp_valid hlt)
  · exact exec_skip_effect (by rw [Bool.decide_eq_false]; exact execSknp_valid hlt)

/-- Settles O31: the entry of the wait is one `waitForKey`, which reads no key level. -/
theorem waitForKeyEntryLatchesX : Obligations.WaitForKeyEntryLatchesX := fun s x =>
  ⟨_, rfl, s.waitForKey_kx x, s.waitForKey_mode x, s.waitForKey_pc x, s.waitForKey_frame x⟩

/-- Settles O32: each of the three is one copy, then `advance`. -/
theorem timerInstructionsCopyOneByte : Obligations.TimerInstructionsCopyOneByte := fun s x =>
  ⟨exec_withResult_effect rfl rfl,
    ⟨_, rfl, s.setDT_DT (s.getV x), rfl, (s.setDT_frame _).trans (State.advance_frame _)⟩,
    ⟨_, rfl, s.setST_ST (s.getV x), rfl, (s.setST_frame _).trans (State.advance_frame _)⟩⟩

/-! ### The key-down (R153, R189) -/

theorem keyDown_of_waiting {s : State} {k : Key} (hk : s.key k = false) (hm : s.mode = .waitingForKey) :
    keyDown s k = (s.setKey k true).resume k := by
  simp [keyDown, hk, hm]

theorem keyDown_of_not_waiting {s : State} {k : Key} (hk : s.key k = false) (hm : s.mode ≠ .waitingForKey) :
    keyDown s k = s.setKey k true := by
  cases hmode : s.mode with
  | waitingForKey => exact absurd hmode hm
  | running | halted => simp [keyDown, hk, hmode]

/-- The key levels and the schedule after the key-down of a key that is up, in every mode: the resume touches neither. -/
theorem keyDown_inputs {s : State} {k : Key} (hk : s.key k = false) :
    (∀ j, (keyDown s k).key j = (s.setKey k true).key j) ∧ (keyDown s k).schedule = s.schedule := by
  by_cases hm : s.mode = .waitingForKey
  · rw [keyDown_of_waiting hk hm]
    exact ⟨fun _ => rfl, rfl⟩
  · rw [keyDown_of_not_waiting hk hm]
    exact ⟨fun _ => rfl, rfl⟩

/-- Settles O48: the state without its schedule entry gets the level in both cases, and the resume after it where it
waits. -/
theorem keyDownRaisesLevelAndResumes : Obligations.KeyDownRaisesLevelAndResumes := by
  intro s k rest hs hk
  let s₀ : State := { s with schedule := rest }
  have hk₀ : s₀.key k = false := hk
  have hraised : Frame [.schedule, .keys] s (s₀.setKey k true) :=
    (s.withSchedule_frame rest).trans (s₀.setKey_frame k true)
  obtain ⟨hkey, hsched⟩ := keyDown_inputs hk₀
  refine ⟨keyDown s₀ k, step_scheduled hs, hsched, (hkey k).trans (s₀.key_setKey_same k true),
    fun j hj => (hkey j).trans (s₀.key_setKey_ne k j true hj), fun hm => ?_, fun hm => ?_⟩
  · rw [keyDown_of_waiting hk₀ hm]
    exact ⟨(s₀.setKey k true).resume_writesReg k, rfl, rfl, (hraised.trans (State.resume_frame _ k)).mono (by simp)⟩
  · rw [keyDown_of_not_waiting hk₀ hm]
    exact hraised.mono (by simp)

end Sys2Proof.Machine
end

section
/-! SUPPORT. How an instruction ends (60_exceptions.md R170 to R178) and that it commutes with a tick (R186). -/

namespace Sys2Proof.Machine

/-! ### Every instruction answers a next state (R177) -/

theorem State.complete_answers (s : State) (r : Except ErrorKind State) : ∃ t, s.complete r = .next t := by
  cases r with
  | ok t => exact ⟨t, rfl⟩
  | error k => exact ⟨s.raise k, rfl⟩

/-- Settles O33: an instruction with a check ends in `State.complete`, which answers in both cases; the others are a
next state as they stand. -/
theorem everyInstructionAnswersANextState : Obligations.EveryInstructionAnswersANextState := by
  intro i s
  cases i with
  | ret | call | drw | skp | sknp | ldB | stRegs | ldRegs => exact s.complete_answers _
  | _ => exact ⟨_, rfl⟩

/-! ### The error kind of each check (R170 to R175) -/

/-- An operation behind one guard fails with the kind of that guard only. -/
theorem eq_of_guard_error {α : Type} {c : Prop} [Decidable c] {a : α} {k k' : ErrorKind}
    (h : (if c then .error k' else .ok a) = Except.error k) : k = k' := by
  split at h
  · exact (Except.error.inj h).symm
  · cases h

theorem State.push_error {d : Nat} {s : State} {a : Word} {k : ErrorKind} (h : s.push d a = .error k) :
    k = .stackOverflow :=
  eq_of_guard_error h

theorem State.pop_error {s : State} {k : ErrorKind} (h : s.pop = .error k) : k = .stackUnderflow := by
  cases hs : s.stack with
  | nil => rw [State.pop_empty hs] at h; exact (Except.error.inj h).symm
  | cons a rest => rw [State.pop_cons hs] at h; cases h

theorem memRead_error {font : Font} {m : Memory} {addr n : Nat} {k : ErrorKind} (h : memRead font m addr n = .error k) :
    k = .outOfBounds :=
  eq_of_guard_error h

theorem memWrite_error {font : Font} {m : Memory} {addr : Nat} {bs : List Byte} {k : ErrorKind}
    (h : memWrite font m addr bs = .error k) : k = .outOfBounds :=
  eq_of_guard_error h

theorem keyOf_error {v : Byte} {k : ErrorKind} (h : keyOf v = .error k) : k = .invalidKey := by
  obtain hv | hv := Nat.lt_or_ge v.toNat 16
  · rw [keyOf_valid hv] at h; cases h
  · rw [keyOf_invalid hv] at h; exact (Except.error.inj h).symm

/-! ### The two ways an instruction ends (R176 to R178) -/

/-- From `s` to `t`, the instruction `i` raises the error of its own check and does nothing else, or it raises none. -/
def EndsPrecisely (i : Instr) (s t : State) : Prop :=
  (∃ k, i.ownError = some k ∧ EntersError k s t) ∨ (t.err = s.err ∧ (t.mode = s.mode ∨ t.mode = .waitingForKey))

theorem EndsPrecisely.of_unraised {i : Instr} {s t : State} (herr : t.err = s.err) (hmode : t.mode = s.mode) :
    EndsPrecisely i s t :=
  .inr ⟨herr, .inl hmode⟩

/-- An instruction whose check raises its own kind only, and that after it neither raises nor changes the mode. -/
theorem EndsPrecisely.of_check {α : Type} {i : Instr} {s t : State} {k : ErrorKind} {r : Except ErrorKind α}
    {f : α → State} (h : s.complete (r.map f) = .next t) (hi : i.ownError = some k)
    (hr : ∀ {k'}, r = .error k' → k' = k) (hf : ∀ a, r = .ok a → (f a).err = s.err ∧ (f a).mode = s.mode) :
    EndsPrecisely i s t := by
  obtain ⟨a, ha, rfl⟩ | ⟨k', hk', rfl⟩ := State.complete_map_next h
  · obtain ⟨herr, hmode⟩ := hf a ha
    exact .of_unraised herr hmode
  · obtain rfl := hr hk'
    exact .inl ⟨k', hi, s.raise_entersError k'⟩

theorem exec_endsPrecisely {i : Instr} {s t : State} (h : exec i s = .next t) : EndsPrecisely i s t := by
  cases i with
  | cls | jp | seI | sneI | seR | ldI | addI | ldR | bitOr | bitAnd | bitXor | addR | sub | shr | subn | shl | sneR
  | ldIdx | jpV0 | ldVxDt | ldDtVx | ldStVx | addIdx | ldF =>
    cases h; exact .of_unraised rfl rfl
  | rnd => cases h; exact .of_unraised (by simp) (by simp)
  | ldVxK => cases h; exact .inr ⟨rfl, .inr rfl⟩
  | ret =>
    refine .of_check h rfl State.pop_error fun (a, u) hr => ?_
    obtain ⟨rest, -, rfl⟩ := State.pop_ok hr
    exact ⟨rfl, rfl⟩
  | call =>
    refine .of_check h rfl State.push_error fun u hu => ?_
    obtain ⟨-, rfl⟩ := State.push_ok hu
    exact ⟨rfl, rfl⟩
  | drw | ldRegs => exact .of_check h rfl memRead_error fun _ _ => ⟨rfl, rfl⟩
  | ldB | stRegs => exact .of_check h rfl memWrite_error fun _ _ => ⟨rfl, rfl⟩
  | skp | sknp => exact .of_check h rfl keyOf_error fun _ _ => ⟨rfl, rfl⟩

/-- Settles O34: `exec_endsPrecisely`. -/
theorem errorsArePreciseAndOfTheirOwnKind : Obligations.ErrorsArePreciseAndOfTheirOwnKind :=
  fun _ _ _ => exec_endsPrecisely

/-! ### An instruction and a tick in either order (R186) -/

theorem State.raise_tick (s : State) (k : ErrorKind) : (tick s).raise k = tick (s.raise k) := rfl

theorem State.sampleTaken_tick (s : State) : (tick s).sampleTaken = tick s.sampleTaken := by
  cases hs : s.samples with
  | nil => rw [(State.sample_free hs).2, (State.sample_free (s := tick s) hs).2]; rfl
  | cons r rest => rw [(State.sample_supplied hs).2, (State.sample_supplied (s := tick s) hs).2]; rfl

/-- Every meaning that uses no timer carries a tick along: its checks and what it writes do not depend on the timers. -/
theorem exec_tick {i : Instr} {s t : State} (hi : i.usesTimer = false) (h : exec i s = .next t) :
    exec i (tick s) = .next (tick t) := by
  cases i with
  | cls | jp | seI | sneI | seR | ldI | addI | ldR | bitOr | bitAnd | bitXor | addR | sub | shr | subn | shl | sneR
  | ldIdx | jpV0 | ldVxK | addIdx | ldF =>
    cases h; rfl
  | ldVxDt | ldDtVx | ldStVx => cases hi
  | rnd => cases h; rw [exec_rnd, State.sampleTaken_tick]; rfl
  | ret =>
    cases hs : s.stack with
    | nil => cases (exec_ret_empty hs).symm.trans h; exact exec_ret_empty (s := tick s) hs
    | cons a rest => cases (exec_ret_cons hs).symm.trans h; exact exec_ret_cons (s := tick s) hs
  | call nnn =>
    obtain hroom | hfull := Nat.lt_or_ge s.stack.length s.params.stackDepth
    · cases (exec_call_has_room nnn hroom).symm.trans h; exact exec_call_has_room (s := tick s) nnn hroom
    · cases (exec_call_full nnn hfull).symm.trans h; exact exec_call_full (s := tick s) nnn hfull
  | drw | skp | sknp | ldB | stRegs | ldRegs =>
    exact State.complete_map_comm (g := tick) h s.raise_tick fun _ => rfl

/-- Settles O38: `exec_tick`. -/
theorem instructionsCommuteWithTicks : Obligations.InstructionsCommuteWithTicks := fun _ _ _ => exec_tick

end Sys2Proof.Machine
end

section
/-! SUPPORT. The transitions of the agents (60_exceptions.md R171 to R196): the first two checks of a step, the tick,
the key-up, and what a step from HALTED or WAITING_FOR_KEY can be. -/

namespace Sys2Proof.Machine

/-! ### The first two checks of a step (R171, R172, R176) -/

theorem unscheduled_running {s : State} (hm : s.mode = .running) : unscheduled s = cpuStep s := by
  unfold unscheduled; rw [hm]

theorem perform_step {s : State} (hm : s.mode = .running) : perform .step s = cpuStep s := if_pos hm

/-- A running machine enters the error `k`, at once or when its scheduled step comes, if its CPU step raises `k`
whatever is scheduled. -/
theorem step_entersError {s : State} {k : ErrorKind} (hm : s.mode = .running)
    (hc : ∀ l, cpuStep { s with schedule := l } = .next ({ s with schedule := l }.raise k)) :
    (s.schedule = [] → ∃ t, step s = .next t ∧ EntersError k s t) ∧
      ∀ rest, s.schedule = .step :: rest → ∃ t, step s = .next t ∧ EntersError k { s with schedule := rest } t := by
  constructor
  · intro hs
    have hstep : step s = cpuStep s := (step_unscheduled hs).trans (unscheduled_running hm)
    exact ⟨_, hstep.trans (hc s.schedule), s.raise_entersError k⟩
  · intro rest hs
    have hstep : step s = cpuStep { s with schedule := rest } := (step_scheduled hs).trans (perform_step hm)
    exact ⟨_, hstep.trans (hc rest), State.raise_entersError _ k⟩

/-- Settles O40: out of range the fetch fails; in range it gives the word at `pc`, and the decoder fails. -/
theorem fetchAndDecodeErrorsComeFirst : Obligations.FetchAndDecodeErrorsComeFirst := by
  refine fun s hm => ⟨fun hpc => ?_, fun w hpc hw hd => ?_⟩
  · exact step_entersError hm fun _ => cpuStep_fetch_error (fetch_out_of_range hpc)
  · have hf : fetch s = .ok w := hw ▸ fetch_in_range hpc
    exact step_entersError hm fun _ => cpuStep_unknown hf hd

/-! ### The tick (R185, R187) -/

/-- The frame of a scheduled transition, performed in the state without its entry. -/
theorem Frame.after_entry {ps qs : List Part} {s t : State} {rest : List Transition}
    (h : Frame ps { s with schedule := rest } t) (hqs : .schedule :: ps ⊆ qs) : Frame qs s t :=
  ((s.withSchedule_frame rest).trans h).mono hqs

theorem tick_frame (s : State) : Frame [.DT, .ST] s (tick s) :=
  (s.setDT_frame (countDown s.DT)).trans (State.setST_frame _ (countDown s.ST))

/-- Settles O44: the step is a tick of the state without its schedule entry. -/
theorem tickDecrementsNonzeroTimers : Obligations.TickDecrementsNonzeroTimers := fun s rest hs =>
  ⟨_, step_scheduled hs, countDown_toNat s.DT, countDown_toNat s.ST, rfl,
    (tick_frame _).after_entry (by simp)⟩

/-- A timer, read by `f`, after `n` ticks: each counts it down and stops at 0. -/
theorem ticks_timer_toNat {f : State → Byte} (hf : ∀ s, f (tick s) = countDown (f s)) (n : Nat) (s : State) :
    (f (ticks n s)).toNat = (f s).toNat - n := by
  induction n generalizing s with
  | zero => rfl
  | succ n ih => rw [ticks, ih, hf, countDown_toNat]; omega

/-- Settles O45: each instruction writes `V[x]` to its timer, and the ticks count down from there. -/
theorem timersCountDownToZero : Obligations.TimersCountDownToZero := fun _ _ n =>
  ⟨⟨_, rfl, ticks_timer_toNat tick_DT n _⟩, ⟨_, rfl, ticks_timer_toNat tick_ST n _⟩⟩

/-! ### The key-up (R189) -/

/-- Writing the level that a key already has changes nothing. -/
theorem State.setKey_key (s : State) (k : Key) : s.setKey k (s.key k) = s := by
  simp [State.setKey, State.key]

/-- In both cases of a key-up the level is false afterwards, and it is the only part written. -/
theorem keyUp_eq_setKey (s : State) (k : Key) : keyUp s k = s.setKey k false := by
  cases hk : s.key k with
  | true => simp [keyUp, hk]
  | false =>
    have hset : s.setKey k false = s := hk ▸ s.setKey_key k
    simp [keyUp, hk, hset]

/-- Settles O49: `keyUp_eq_setKey`, in the state without its schedule entry. -/
theorem keyUpLowersLevelOnly : Obligations.KeyUpLowersLevelOnly := by
  intro s k rest hs
  let s₀ : State := { s with schedule := rest }
  have hstep : step s = .next (s₀.setKey k false) := keyUp_eq_setKey s₀ k ▸ step_scheduled hs
  exact ⟨_, hstep, rfl, s₀.key_setKey_same k false, fun j => s₀.key_setKey_ne k j false,
    (s₀.setKey_frame k false).after_entry (by simp)⟩

/-! ### A machine that does not run (R179, R196) -/

theorem keyUp_frame (s : State) (k : Key) : Frame [.keys] s (keyUp s k) :=
  keyUp_eq_setKey s k ▸ s.setKey_frame k false

theorem keyDown_of_down {s : State} {k : Key} (hk : s.key k = true) : keyDown s k = s := if_pos hk

/-- Everything a key-down can be: the resume of a waiting core by a key that was up, or a change of the key levels at
most. -/
theorem keyDown_cases (s : State) (k : Key) :
    (s.key k = false ∧ s.mode = .waitingForKey ∧ (keyDown s k).mode = .running) ∨ Frame [.keys] s (keyDown s k) := by
  cases hk : s.key k with
  | true =>
    have hframe := s.setKey_frame k (s.key k)
    rw [s.setKey_key k] at hframe
    refine .inr ?_
    rwa [keyDown_of_down hk]
  | false =>
    by_cases hm : s.mode = .waitingForKey
    · exact .inl ⟨rfl, hm, keyDown_of_waiting hk hm ▸ rfl⟩
    · exact .inr (keyDown_of_not_waiting hk hm ▸ s.setKey_frame k true)

/-- Everything a step of a machine that does not run can be: the resume of a waiting core by a key that was up, a reset,
or a change of the parts that are the timer agent's, the host's and the model's own. -/
theorem step_not_running {s t : State} (hm : s.mode ≠ .running) (h : step s = .next t) :
    (∃ k rest, s.schedule = .keyDown k :: rest ∧ s.key k = false ∧ s.mode = .waitingForKey ∧ t.mode = .running) ∨
      s.Resets ∨ Frame [.DT, .ST, .keys, .schedule] s t := by
  obtain ⟨-, -, hrun, -⟩ | ⟨r, -, rfl⟩ | ⟨r, -, rfl⟩ | ⟨k, r, hs, rfl⟩ | ⟨k, r, -, rfl⟩ | ⟨image, r, hs, -, -⟩ :=
    step_cases h
  · exact absurd hrun hm
  · exact .inr (.inr ((s.withSchedule_frame r).mono (by simp)))
  · exact .inr (.inr ((tick_frame _).after_entry (by simp)))
  · obtain ⟨hk, hw, hrun⟩ | hframe := keyDown_cases { s with schedule := r } k
    · exact .inl ⟨k, r, hs, hk, hw, hrun⟩
    · exact .inr (.inr (hframe.after_entry (by simp)))
  · exact .inr (.inr ((keyUp_frame _ k).after_entry (by simp)))
  · exact .inr (.inl ⟨image, r, hs⟩)

/-- Settles O42: a halted machine is not waiting, so of `step_not_running` the reset and the frame are left. -/
theorem haltedIsLeftOnlyByReset : Obligations.HaltedIsLeftOnlyByReset := by
  intro s t hm h
  obtain ⟨_, _, -, -, hw, -⟩ | hreset | hframe := step_not_running (by simp [hm]) h
  · simp [hm] at hw
  · exact .inl hreset
  · have hmode : t.mode = s.mode := hframe .mode (by decide)
    exact .inr ⟨hmode.trans hm, hframe .err (by decide), hframe⟩

/-- Settles O43: `step_not_running`; the frame keeps the mode. -/
theorem waitIsLeftOnlyByKeyDownOrReset : Obligations.WaitIsLeftOnlyByKeyDownOrReset := by
  intro s t hm h
  obtain ⟨k, rest, hs, hk, -, hrun⟩ | hreset | hframe := step_not_running (by simp [hm]) h
  · exact .inl ⟨k, rest, hs, hk, hrun⟩
  · exact .inr (.inl hreset)
  · have hmode : t.mode = s.mode := hframe .mode (by decide)
    exact .inr (.inr ⟨hmode.trans hm, hframe⟩)

end Sys2Proof.Machine
end

section
/-! SUPPORT. The CPU agent's step on a decoded instruction, the idling program and the reset (70_reset_and_hazards.md R200
to R207): what an executed JP to itself leaves, and the memory and the frame of a booted machine. -/

namespace Sys2Proof

/-- What the decoder makes of exactly two bytes, it makes of their word (R43, R44). -/
theorem decode_of_decodeBytes {hi lo : Byte} {i : Instr} (h : decodeBytes [hi, lo] = .ok (i, [])) :
    decode (wordOfBytes hi lo) = .ok i := by
  rw [decodeBytes_word] at h
  cases hd : decode (wordOfBytes hi lo) with
  | error e => rw [hd] at h; cases h
  | ok j => rw [hd] at h; cases h; rfl

end Sys2Proof

namespace Sys2Proof.Machine

/-! ### The step of a running machine (R205) -/

section Running

variable {s : State} {w : Word} {i : Instr} (hm : s.mode = .running) (hf : fetch s = .ok w) (hd : decode w = .ok i)
include hm hf hd

theorem step_unscheduled_exec (hs : s.schedule = []) : step s = exec i s :=
  calc step s = unscheduled s := step_unscheduled hs
    _ = cpuStep s := unscheduled_running hm
    _ = exec i s := cpuStep_exec hf hd

theorem step_scheduled_exec {rest : List Transition} (hs : s.schedule = .step :: rest) :
    step s = exec i { s with schedule := rest } :=
  calc step s = perform .step { s with schedule := rest } := step_scheduled hs
    _ = cpuStep { s with schedule := rest } := perform_step hm
    _ = exec i { s with schedule := rest } := cpuStep_exec ((fetch_schedule s rest).trans hf) hd

end Running

/-- Settles O39: the two bytes are the fetched word, and the step executes what that word decodes to. -/
theorem stepRunsTheDecodedInstruction : Obligations.StepRunsTheDecodedInstruction := by
  intro s i hm hpc hdec _
  have hf := fetch_in_range hpc
  have hd := decode_of_decodeBytes hdec
  exact ⟨step_unscheduled_exec hm hf hd, fun _ => step_scheduled_exec hm hf hd⟩

/-! ### The idling program (R207, D25) -/

theorem State.setPc_self (s : State) : s.setPc s.pc = s := rfl

theorem exec_jp (nnn : Imm12) (s : State) : exec (.jp nnn) s = .next (s.setPc (zextNNN nnn)) := rfl

@[simp] theorem tick_mode (s : State) : (tick s).mode = s.mode := rfl

@[simp] theorem tick_pc (s : State) : (tick s).pc = s.pc := rfl

/-- The fetch does not depend on the timers. -/
@[simp] theorem fetch_tick (s : State) : fetch (tick s) = fetch s := rfl

theorem State.Idles.step_eq {s : State} (h : s.Idles) (hs : s.schedule = []) : step s = .next s := by
  obtain ⟨hm, w, nnn, hf, hd, hpc⟩ := h
  rw [step_unscheduled_exec hm hf hd hs, exec_jp, hpc, s.setPc_self]

theorem State.Idles.after_tick {s : State} (h : s.Idles) : (tick s).Idles := by
  simpa [State.Idles] using h

/-- Settles O52: the executed JP sets `pc` to the value it has, and a tick touches neither the mode, `pc` nor the fetch. -/
theorem idlingProgramStaysAsItIs : Obligations.IdlingProgramStaysAsItIs := fun _ h => ⟨h.step_eq, h.after_tick⟩

/-! ### The reset (R200, R202, R48, R55) -/

theorem resetWith_fits (s : State) {image : List Byte} (h : image.length ≤ 3584) :
    resetWith s image = .next (s.booted image) := if_pos (decide_eq_true h)

theorem resetWith_too_long (s : State) {image : List Byte} (h : 3584 < image.length) :
    resetWith s image = .fault .imageTooLong := if_neg fun hi => Nat.not_le_of_gt h (of_decide_eq_true hi)

/-- The memory of a booted machine is the one after reset with the image stored at 0x200. -/
theorem State.booted_byte (s : State) (image : List Byte) (a : Nat) : (s.booted image).byte a =
    ((State.resetFor s.params).setMem ((State.resetFor s.params).mem.writeBytes s.params.font 0x200 image)).byte a := rfl

theorem State.booted_byte_image (s : State) {image : List Byte} (hlen : image.length ≤ 3584) (i : Nat)
    (hi : i < image.length) : (s.booted image).byte (0x200 + i) = image[i] := by
  rw [State.booted_byte]
  exact State.byte_store_inside (State.memWf_resetFor s.params) (by simp only [Config.memSize]; omega) i hi

theorem State.booted_byte_outside (s : State) (image : List Byte) {a : Nat} (h : a < 0x200 ∨ 0x200 + image.length ≤ a) :
    (s.booted image).byte a = (State.resetFor s.params).byte a :=
  State.byte_store_outside (State.resetFor s.params) 0x200 a image h

theorem State.booted_byte_font (s : State) (image : List Byte) (i : Nat) (hi : i < 80) :
    (s.booted image).byte (0x050 + i) = s.params.font[i] := by
  rw [s.booted_byte_outside image (by omega), State.byte_resetFor_font _ i hi]

theorem State.booted_byte_zero (s : State) (image : List Byte) {a : Nat}
    (h : a < 0x050 ∨ (0x0A0 ≤ a ∧ a < 0x200) ∨ 0x200 + image.length ≤ a) : (s.booted image).byte a = 0 := by
  rw [s.booted_byte_outside image (by omega), State.byte_resetFor_zero _ (by omega)]

/-- Beside memory, only the host's own inputs and the schedule are not at their values of R27. -/
theorem State.booted_frame (s : State) (image : List Byte) :
    Frame [.mem, .keys, .schedule, .random] (State.resetFor s.params) (s.booted image) := by
  intro p hp
  cases p with
  | mem | keys | schedule | random => simp at hp
  | V => exact fun _ => rfl
  | _ => exact rfl

/-- Settles O50: an image that fits boots, with memory by its ranges and the rest by `State.booted_frame`; a longer one
stops the load. -/
theorem resetTransitionBootsTheImage : Obligations.ResetTransitionBootsTheImage := by
  intro s image rest hs
  have hstep : step s = resetWith { s with schedule := rest } image := step_scheduled hs
  constructor
  · intro hlen
    exact ⟨_, hstep.trans (resetWith_fits _ hlen), State.booted_byte_image _ hlen, State.booted_byte_font _ image,
      fun _ => State.booted_byte_zero _ image, rfl, rfl, rfl, rfl, State.booted_frame _ image⟩
  · exact fun hlen => hstep.trans (resetWith_too_long _ hlen)

end Sys2Proof.Machine
end
